-- ==== Sys2Proof/Word.lean ====
section
/-! DEFINITION. The word types of the engine: 32-bit register words (R20), 8-bit samples (R4, R50), and the
sixteen-word command descriptor (R80). Nothing here can be mended later, so nothing here computes. -/

namespace Sys2Proof

/-- A register word, 32 bits (`XLEN`, R5, R20). -/
abbrev Word := BitVec 32

/-- A byte of memory, 8 bits (R50). -/
abbrev Byte := BitVec 8

/-- A Sample: "an 8-bit unsigned integer", 0 to 255, held in one byte (R4, R50). -/
abbrev Sample := Byte

/-- The sixteen 32-bit words of one command (R80): the content of `DESC[0..15]` or of the latch `CMD`. -/
abbrev Descriptor := Vector Word 16

end Sys2Proof
end

