-- ==== Sys2Proof/Syntax.lean ====
section
/-! DEFINITION. The six commands (R88, R91): one constructor of `Instr` per row of spec/opcode_table.json, over the two
records of R88. Field values are the unbounded integers of R10 (assumption 21); `WellFormed.lean` says which of them a descriptor can
hold. The bits `blend` and `mode` of R88 are the choice of constructor. -/

namespace Sys2Proof

/-- A filter kernel `f[0..7]`, tap 0 first (R12, R87): eight signed coefficients in units of 1/128. -/
structure Kernel where
  t0 : Int
  t1 : Int
  t2 : Int
  t3 : Int
  t4 : Int
  t5 : Int
  t6 : Int
  t7 : Int
deriving DecidableEq, Repr

/-- `InterCmd` (R88), without `blend`. -/
structure InterCmd where
  w : Nat
  h : Nat
  dstAddr : Nat
  dstStride : Nat
  srcAddr : Nat
  srcStride : Nat
  stepX : Nat
  stepY : Nat
  fx : Kernel
  fy : Kernel
deriving DecidableEq, Repr

/-- `IntraCmd` (R88), without `mode`. -/
structure IntraCmd where
  hasAbove : Bool
  hasLeft : Bool
  corner : Nat
  w : Nat
  h : Nat
  dstAddr : Nat
  dstStride : Nat
  aboveAddr : Nat
  leftAddr : Nat
deriving DecidableEq, Repr

/-- The six commands of R91; there is no other (R96). -/
inductive Instr where
  /-- INTER.PUT (R146): predict from a reference window and store. -/
  | interPut (c : InterCmd)
  /-- INTER.AVG (R162): predict and average into the destination. -/
  | interAvg (c : InterCmd)
  /-- INTRA.V (R176): replicate the above row. -/
  | intraV (c : IntraCmd)
  /-- INTRA.H (R177): replicate the left column. -/
  | intraH (c : IntraCmd)
  /-- INTRA.DC (R178): rounded mean of the neighbors. -/
  | intraDc (c : IntraCmd)
  /-- INTRA.TM (R179): gradient-corrected predictor. -/
  | intraTm (c : IntraCmd)
deriving DecidableEq, Repr

/-- The eight taps in order, tap 0 first. -/
def Kernel.taps (f : Kernel) : List Int := [f.t0, f.t1, f.t2, f.t3, f.t4, f.t5, f.t6, f.t7]

/-- The identity kernel: "center coefficient `1<<FILTER_BITS`, others zero" (glossary, R131). -/
def Kernel.identity : Kernel := ⟨0, 0, 0, 128, 0, 0, 0, 0⟩

end Sys2Proof
end

