-- ==== Sys2Proof/WellFormed.lean ====
section
/-! DEFINITION. Which instructions a descriptor can hold: the field ranges of the records of R88. Ill-formed terms have
no words; every well-formed one has (R103). This is not the engine's own checking (R230, Machine/Checks.lean): a
well-formed command may still be stopped by a check (R94). -/

namespace Sys2Proof

/-- A coefficient is a 16-bit two's-complement value (R87, R88). -/
def coeffWellFormed (t : Int) : Bool := decide (-32768 ≤ t) && decide (t ≤ 32767)

/-- Every tap is a 16-bit two's-complement value. -/
def Kernel.wellFormed (f : Kernel) : Bool := f.taps.all coeffWellFormed

/-- The ranges of R88 for an `InterCmd`. -/
def InterCmd.wellFormed (c : InterCmd) : Bool :=
  decide (c.w < 65536) && decide (c.h < 65536) && decide (c.dstAddr < 4294967296) && decide (c.dstStride < 4294967296) &&
  decide (c.srcAddr < 4294967296) && decide (c.srcStride < 4294967296) && decide (c.stepX < 65536) && decide (c.stepY < 65536) &&
  c.fx.wellFormed && c.fy.wellFormed

/-- The ranges of R88 for an `IntraCmd`. -/
def IntraCmd.wellFormed (c : IntraCmd) : Bool :=
  decide (c.corner < 256) && decide (c.w < 65536) && decide (c.h < 65536) && decide (c.dstAddr < 4294967296) &&
  decide (c.dstStride < 4294967296) && decide (c.aboveAddr < 4294967296) && decide (c.leftAddr < 4294967296)

/-- A command whose fields all fit their encodings (R88). -/
def Instr.wellFormed : Instr → Bool
  | .interPut c => c.wellFormed
  | .interAvg c => c.wellFormed
  | .intraV c => c.wellFormed
  | .intraH c => c.wellFormed
  | .intraDc c => c.wellFormed
  | .intraTm c => c.wellFormed

end Sys2Proof
end

