-- ==== Sys2Proof/Decode.lean ====
section
/-! DEFINITION. Command decoding and encoding: fields by bit position (R9), `decode` on all 2^512 descriptors (R89),
the named reasons of an illegal encoding (R93), and the assembler's output `encode` (R103). -/

namespace Sys2Proof

/-- `v[hi:lo]`: bits `hi` down to `lo`, read as an unsigned integer (R9). -/
def field (v : Word) (hi lo : Nat) : Nat := v.toNat / 2 ^ lo % 2 ^ (hi - lo + 1)

/-- `sext_16`: a 16-bit field read as a two's-complement integer (R9). -/
def sext16 (n : Nat) : Int := if n < 32768 then n else (n : Int) - 65536

/-- The 16-bit field that holds a coefficient, `f mod 2^16` (R103). -/
def coeffField (t : Int) : Nat := (t % 65536).toNat

/-- Why a descriptor is illegal: the cases of R93. All of them end the command with `ERR_ILLEGAL` (R221). -/
inductive IllegalReason where
  /-- R93 (a): `OPCODE` is 0 or 3 to 15. -/
  | opcode
  /-- R93 (b): a bit of 31:24 or 15:9 of `DESC[0]` is set. -/
  | reservedBits
  /-- R93 (c): an INTER command with `MODE`, `HAS_ABOVE`, `HAS_LEFT` or `CORNER` non-zero. -/
  | interFields
  /-- R93 (d): an INTRA command with `BLEND` = 1. -/
  | intraBlend
  /-- R93 (e): `DESC[7]` non-zero. -/
  | reservedWord
  /-- R93 (f): an INTRA command with one of `DESC[6]`, `DESC[8..15]` non-zero. -/
  | intraWords
deriving DecidableEq, Repr

/-- Two coefficients a word, the lower tap in the lower half (R87). -/
def kernelOfWords (w0 w1 w2 w3 : Word) : Kernel :=
  { t0 := sext16 (field w0 15 0), t1 := sext16 (field w0 31 16)
    t2 := sext16 (field w1 15 0), t3 := sext16 (field w1 31 16)
    t4 := sext16 (field w2 15 0), t5 := sext16 (field w2 31 16)
    t6 := sext16 (field w3 15 0), t7 := sext16 (field w3 31 16) }

/-- The fields of R82 to R87 of an INTER command. -/
def interFieldsOf (d : Descriptor) : InterCmd :=
  { w := field d[1] 15 0, h := field d[1] 31 16
    dstAddr := d[2].toNat, dstStride := d[3].toNat
    srcAddr := d[4].toNat, srcStride := d[5].toNat
    stepX := field d[6] 15 0, stepY := field d[6] 31 16
    fx := kernelOfWords d[8] d[9] d[10] d[11]
    fy := kernelOfWords d[12] d[13] d[14] d[15] }

/-- The fields of R81 to R84 of an INTRA command. -/
def intraFieldsOf (d : Descriptor) : IntraCmd :=
  { hasAbove := field d[0] 7 7 == 1, hasLeft := field d[0] 8 8 == 1
    corner := field d[0] 23 16
    w := field d[1] 15 0, h := field d[1] 31 16
    dstAddr := d[2].toNat, dstStride := d[3].toNat
    aboveAddr := d[4].toNat, leftAddr := d[5].toNat }

/-- The mode of an INTRA command, `(V,H,DC,TM)[w0[5:4]]` (R81, R89). -/
def intraOfMode (mode : Nat) (c : IntraCmd) : Instr :=
  match mode with
  | 0 => .intraV c
  | 1 => .intraH c
  | 2 => .intraDc c
  | _ => .intraTm c

/-- `decode(CMD[0..15])` (R89): total on every descriptor, an illegal one rejected by its reason (R93). -/
def decode (d : Descriptor) : Except IllegalReason Instr :=
  if field d[0] 3 0 = 1 then
    if field d[0] 31 24 ≠ 0 ∨ field d[0] 15 9 ≠ 0 then .error .reservedBits
    else if field d[0] 5 4 ≠ 0 ∨ field d[0] 8 7 ≠ 0 ∨ field d[0] 23 16 ≠ 0 then .error .interFields
    else if d[7] ≠ 0 then .error .reservedWord
    else if field d[0] 6 6 = 0 then .ok (.interPut (interFieldsOf d))
    else .ok (.interAvg (interFieldsOf d))
  else if field d[0] 3 0 = 2 then
    if field d[0] 31 24 ≠ 0 ∨ field d[0] 15 9 ≠ 0 then .error .reservedBits
    else if field d[0] 6 6 ≠ 0 then .error .intraBlend
    else if d[7] ≠ 0 then .error .reservedWord
    else if d[6] ≠ 0 ∨ d[8] ≠ 0 ∨ d[9] ≠ 0 ∨ d[10] ≠ 0 ∨ d[11] ≠ 0 ∨ d[12] ≠ 0 ∨ d[13] ≠ 0 ∨ d[14] ≠ 0 ∨ d[15] ≠ 0 then
      .error .intraWords
    else .ok (intraOfMode (field d[0] 5 4) (intraFieldsOf d))
  else .error .opcode

/-- Two 16-bit halves in one word, the first in the low half (R82, R85, R87, R103). -/
def halves (low high : Nat) : Word := BitVec.ofNat 32 (low + high * 65536)

/-- Kernel word `k`: taps `2k` and `2k+1` (R103). -/
def kernelWord (even odd : Int) : Word := halves (coeffField even) (coeffField odd)

/-- `encode` of an `InterCmd` (R103). -/
def encodeInter (blend : Nat) (c : InterCmd) : Descriptor :=
  #v[BitVec.ofNat 32 (1 + blend * 64), halves c.w c.h, BitVec.ofNat 32 c.dstAddr, BitVec.ofNat 32 c.dstStride,
     BitVec.ofNat 32 c.srcAddr, BitVec.ofNat 32 c.srcStride, halves c.stepX c.stepY, 0,
     kernelWord c.fx.t0 c.fx.t1, kernelWord c.fx.t2 c.fx.t3, kernelWord c.fx.t4 c.fx.t5, kernelWord c.fx.t6 c.fx.t7,
     kernelWord c.fy.t0 c.fy.t1, kernelWord c.fy.t2 c.fy.t3, kernelWord c.fy.t4 c.fy.t5, kernelWord c.fy.t6 c.fy.t7]

/-- `encode` of an `IntraCmd` with mode code `m` (R103). -/
def encodeIntra (m : Nat) (c : IntraCmd) : Descriptor :=
  #v[BitVec.ofNat 32 (2 + m * 16 + c.hasAbove.toNat * 128 + c.hasLeft.toNat * 256 + c.corner * 65536),
     halves c.w c.h, BitVec.ofNat 32 c.dstAddr, BitVec.ofNat 32 c.dstStride,
     BitVec.ofNat 32 c.aboveAddr, BitVec.ofNat 32 c.leftAddr, 0, 0, 0, 0, 0, 0, 0, 0, 0, 0]

/-- `encode`, the assembler's output (R103): the sixteen words of a well-formed command. -/
def encode : Instr → Descriptor
  | .interPut c => encodeInter 0 c
  | .interAvg c => encodeInter 1 c
  | .intraV c => encodeIntra 0 c
  | .intraH c => encodeIntra 1 c
  | .intraDc c => encodeIntra 2 c
  | .intraTm c => encodeIntra 3 c

/-- The number `w` without its `i` lowest 32-bit words. -/
def dropWords : (i w : Nat) → Nat
  | 0, w => w
  | i + 1, w => dropWords i (w / 4294967296)

/-- The sixteen words of a 512-bit number: word `i` is bits `32*i+31` to `32*i`, and the bits from `nbits` up are 0. -/
def descriptorOfBits (nbits w : Nat) : Descriptor :=
  Vector.ofFn fun i => BitVec.ofNat 32 (dropWords i.val w % 2 ^ min (nbits - 32 * i.val) 32)

/-- The command the decoder reads from a number whose bits are numbered as spec/opcode_table.json numbers them. -/
def decodeTableWord (nbits w : Nat) : Option Instr :=
  match decode (descriptorOfBits nbits w) with
  | .ok i => some i
  | .error _ => none

end Sys2Proof
end

