-- ==== Sys2Proof/Config.lean ====
section
/-! DEFINITION. The parameters of the engine: those the source fixes (R4), those this hardware chooses (R5), and the
values the spec leaves open, each an opaque constant with no body (R6, R32, R33, R35, R252). -/

namespace Sys2Proof.Config

/-! ### Fixed by the source (R4) -/

/-- `SAMPLE_BITS`: a Sample is an 8-bit unsigned integer. -/
def sampleBits : Nat := 8

/-- `FILTER_BITS`: a kernel's coefficients sum to `1 << FILTER_BITS`. -/
def filterBits : Nat := 7

/-- `1 << FILTER_BITS` = 128, the sum of a normalized kernel (R4, R225). -/
def kernelUnity : Int := 128

/-- `ROUND_ADD` = `1 << (FILTER_BITS - 1)` = 64. -/
def roundAdd : Int := 64

/-- `TAPS_FULL`: taps of the full filter. -/
def tapsFull : Nat := 8

/-- `TAPS_BILINEAR`: taps of the bilinear filter. -/
def tapsBilinear : Nat := 2

/-- `CENTER`: the tap index that sits on the output position (R4, R133). -/
def center : Nat := 3

/-- `STEP_UNITY`: the phase step 16 means 1.0, no resampling (R4, R142). -/
def stepUnity : Nat := 16

/-- `SPECIAL_SIZES`: the block sides that have specialized variants (R4, R190). -/
def specialSizes : List Nat := [4, 8, 16, 32, 64]

/-- `NEUTRAL`: the midpoint gray value (R4, R175). -/
def neutral : Nat := 128

/-! ### Chosen by this hardware (R5) -/

/-- One past the highest byte address: `AW` = 32 bits, addresses 0 to 2^32 - 1. -/
def addressSpace : Nat := 4294967296

/-- `MAX_DIM`: the largest block side; legal `WIDTH` and `HEIGHT` are 1 to 64. -/
def maxDim : Nat := 64

/-- `TMP_ROWS`: rows of the intermediate buffer, `MAX_DIM + TAPS_FULL - 1`. -/
def tmpRows : Nat := 71

/-- `TMP_COLS`: columns of the intermediate buffer. -/
def tmpCols : Nat := 64

/-! ### Left open (R6): free values, no body -/

/-- `REG_BASE` (R6, R21): where the platform maps the register block; a free value. Assumption 18. -/
opaque regBase : Nat

/-- The content of cell (row, column) of the intermediate buffer `TMP` outside the rows the running command wrote, for
the `n`-th time that content became unspecified (R33, U11): a free value. Assumption 2. -/
opaque freeTmp : (n row col : Nat) → Sample

/-- Word `i` of the command latch `CMD` after the reset input, the `n`-th free value drawn (R35, U11). Assumption 3. -/
opaque freeCmdWord : (n i : Nat) → Word

/-- The byte at address `a` of the write set of a command cut off by reset (R252, U13): "a model lets each such byte
take any value". Assumption 4. -/
opaque freeByte : (n a : Nat) → Byte

end Sys2Proof.Config
end

