-- ==== Sys2Proof/Machine/State.lean ====
section
/-! DEFINITION. The state of one engine with the memory it shares (R20 to R35, R50), the outside world's pending
actions (R7), and the ways a step can stop. All plain data. -/

namespace Sys2Proof.Machine

/-- Memory as a list of (address, byte) pairs in one canonical form: addresses strictly rising, and no entry equal to
what an unlisted address reads as (`Memory.wf`, Machine/Ops.lean). One byte holds one Sample (R50). -/
abbrev Memory := List Host.Cell

/-- A range of plain readable and writable memory: the parameter `Valid` of R6 is a list of these. -/
structure Region where
  base : Nat
  size : Nat
deriving DecidableEq, Repr

/-- The intermediate buffer `TMP` (R33): the rows the running command has written, over a content that is unspecified
(free value number `gen`). Outside a command no row is written. -/
structure Tmp where
  gen : Nat
  rows : List (List Sample)
deriving DecidableEq, Repr

/-- What happens next, as the host and the platform schedule it (R7, R205): an operation of the host, which stands for
every other agent, or the engine's turn. -/
inductive Action where
  /-- `RegWrite(i, v)` (R200). -/
  | regWrite (i : Nat) (v : Word)
  /-- `RegRead(i)` (R201). -/
  | regRead (i : Nat)
  /-- The host's `wait` loop (R102): poll `STATUS` until `DONE` is 1, the engine taking its step between two polls (R210). -/
  | wait
  /-- Another agent reads the byte at `a` (R70). -/
  | memRead (a : Nat)
  /-- Another agent writes the byte at `a` (R70). -/
  | memWrite (a : Nat) (v : Byte)
  /-- The reset input is asserted (R250). -/
  | reset
  /-- The engine's turn: `EXEC` if `BUSY` = 1, nothing otherwise (R205). -/
  | engine
deriving DecidableEq, Repr

/-- The state of one engine (assumption 17): the registers of R20 and R21 (`CTRL` holds none, R25; `STATUS` is its four fields, R26), the hidden
state of R32 and R33, the memory, the open parameter `Valid` (R6), and the model's own bookkeeping. -/
structure State where
  /-- `DESC[0..15]` (R22). -/
  desc : Descriptor
  /-- `STATUS.BUSY` (R27). -/
  busy : Bool
  /-- `STATUS.DONE` (R28). -/
  done : Bool
  /-- `STATUS.ERR` (R29). -/
  err : Bool
  /-- `STATUS.ERRCODE` (R30). -/
  errCode : BitVec 4
  /-- The command latch `CMD[0..15]` (R32). -/
  cmd : Descriptor
  /-- The intermediate buffer `TMP` (R33). -/
  tmp : Tmp
  /-- The memory the engine reads and writes (R50). -/
  mem : Memory
  /-- `Valid` (R6, R53): where plain memory is. No step changes it. -/
  regions : List Region
  /-- The model's own: what the outside world does next, first action first (R7). -/
  agenda : List Action
  /-- The model's own: the value last returned to the host by a read (R8, R201). -/
  reply : Option Word
  /-- The model's own: the commands accepted since the host last read a `STATUS` with `DONE` = 1 and `ERR` = 0 (R68, R256 to
  R258, assumption 12). -/
  inFlight : List Descriptor
  /-- The model's own: the never-cleared record of every error code, oldest first, which R233 asks for (assumption 7). -/
  errRecord : List (BitVec 4)
  /-- The model's own: how many times free values have been drawn. -/
  freeCount : Nat
deriving DecidableEq, Repr

/-- How a run leaves the model's assumptions with no effect the spec gives (R229). -/
inductive Fault where
  /-- Raised by `EXEC` alone, when a byte of the command's footprint is not `Valid` (R53, R229 (a), U1): "A model treats a
  command with any footprint address outside `Valid` as a fault of the launch memory, never as a value". Safe. -/
  | launchMemory
  /-- Raised by another agent's access to a byte of a command in flight (R70, R256 to R258, U4): a race. Safe. -/
  | race
  /-- Raised by another agent's access to an address that is not `Valid` (R6). Safe: the platform's own affair. -/
  | hostMemory
deriving DecidableEq, Repr

/-- Why the model gives no meaning. -/
inductive Refusal where
  /-- An instruction that has no meaning yet; raised by `exec`'s arm alone. Safe. -/
  | notModelled (mnemonic : String)
  /-- Raised by `EXEC` alone, when a command's read set meets its write set (R72, R229 (c), U5, D22): "a model checks
  disjointness of the exact sets and refuses the command when they meet". Safe. -/
  | overlap
deriving DecidableEq, Repr

/-- The machine right after reset (R35, R250): `DESC` and `STATUS` zero. `CMD` is unspecified there and zero here
(assumption 1), `TMP` is free value 0 (assumption 2), no memory is listed (assumption 5), every address is plain memory (assumption 6), and nothing is scheduled (assumption 19). -/
def State.reset : State :=
  { desc := Vector.replicate 16 0, busy := false, done := false, err := false, errCode := 0
    cmd := Vector.replicate 16 0, tmp := ⟨0, []⟩, mem := [], regions := [⟨0, 4294967296⟩]
    agenda := [], reply := none, inFlight := [], errRecord := [], freeCount := 1 }

end Sys2Proof.Machine
end

