-- ==== Sys2Proof/Machine/Flags.lean ====
section
/-! DEFINITION. The status register: its bits (R26), the values it takes (R31), and the error codes (R221 to R228). The
engine has no arithmetic flags: no command sets a carry, zero, sign or overflow flag, and saturation is not recorded (R31). -/

namespace Sys2Proof.Machine

/-- The seven errors (R220). -/
inductive ErrorKind where
  /-- `ERR_ILLEGAL` (R221). -/
  | illegal
  /-- `ERR_SIZE` (R222). -/
  | size
  /-- `ERR_STRIDE` (R223). -/
  | stride
  /-- `ERR_STEP` (R224). -/
  | step
  /-- `ERR_COEFF` (R225). -/
  | coeff
  /-- `ERR_NEIGHBOR` (R226). -/
  | neighbor
  /-- `ERR_ADDR` (R227). -/
  | addr
deriving DecidableEq, Repr

/-- The code of an error, 1 to 7 (R221 to R227); 0 means no error, and 8 to 15 are never produced (R228). -/
def ErrorKind.code : ErrorKind → BitVec 4
  | .illegal => 1
  | .size => 2
  | .stride => 3
  | .step => 4
  | .coeff => 5
  | .neighbor => 6
  | .addr => 7

/-- The value of `STATUS`: `BUSY | (DONE << 1) | (ERR << 2) | (ERRCODE << 4)` (R26, R201); bits 3 and 31:8 are 0. -/
def statusOf (busy done err : Bool) (errCode : BitVec 4) : Word :=
  BitVec.ofNat 32 (busy.toNat + done.toNat * 2 + err.toNat * 4 + errCode.toNat * 16)

/-- `STATUS` (index 17) as the host reads it (R201). -/
def State.status (s : State) : Word := statusOf s.busy s.done s.err s.errCode

end Sys2Proof.Machine
end

