-- ==== Sys2Proof/Machine/Ops.lean ====
section
/-! DEFINITION. The named operations over memory, `TMP` and the status register that every command shares: `MemRead`
and `MemWrite` (R11, R56), the store loop (R61), error entry (R231), leaving the halted state (R203, R234), and completion (R207). -/

namespace Sys2Proof.Machine

/-! ### Memory -/

/-- What an address that no pair lists reads as: 0. The spec gives memory no content at power-on (R35). Assumption 5. -/
def Memory.unlisted : Byte := 0

/-- The byte at address `a`: the last value written (R57). -/
def Memory.read : Memory → Nat → Byte
  | [], _ => Memory.unlisted
  | (k, v) :: m, a => if k = a then v else Memory.read m a

/-- The memory with no pair for `a`. -/
def Memory.erase (m : Memory) (a : Nat) : Memory := m.filter fun p => decide (p.1 ≠ a)

/-- The pair `(a, v)` put before the first larger address. -/
def Memory.insert : Memory → Nat → Byte → Memory
  | [], a, v => [(a, v)]
  | (k, w) :: m, a, v => if a < k then (a, v) :: (k, w) :: m else (k, w) :: Memory.insert m a v

/-- `v` stored at `a`; storing what an unlisted address reads as leaves `a` unlisted. -/
def Memory.write (m : Memory) (a : Nat) (v : Byte) : Memory :=
  if v = Memory.unlisted then Memory.erase m a else Memory.insert (Memory.erase m a) a v

/-- The bytes of `cells` stored in order. -/
def Memory.writeAll (m : Memory) (cells : List Host.Cell) : Memory :=
  cells.foldl (fun m p => Memory.write m p.1 p.2) m

/-- The canonical form: addresses strictly rising, and no entry equal to what an unlisted address reads as. -/
def Memory.wf : Memory → Bool
  | [] => true
  | [p] => decide (p.2 ≠ Memory.unlisted)
  | p :: q :: m => decide (p.2 ≠ Memory.unlisted) && decide (p.1 < q.1) && Memory.wf (q :: m)

/-- The byte address of row `y`, column `x` of a plane with base `A` and stride `S`, in unbounded integers (R60). -/
def addr (A S : Nat) (y x : Int) : Int := (A : Int) + y * (S : Int) + x

/-- `MemRead(a, 1)` (R11). The checks keep `a` within 0 to 2^32 - 1 before any access (R227). -/
def memRead (m : Memory) (a : Int) : Sample := Memory.read m a.toNat

/-- `Valid(a)` (R6, R53): a byte of plain memory of the platform, inside the 32-bit address space (R50). -/
def State.valid (s : State) (a : Int) : Bool :=
  decide (0 ≤ a) && decide (a < (Config.addressSpace : Int)) &&
    s.regions.any fun r => decide ((r.base : Int) ≤ a) && decide (a < (r.base : Int) + (r.size : Int))

/-! ### The store loop -/

/-- A destination block: `W`, `H`, `DST_ADDR`, `DST_STRIDE` (R61). -/
structure Block where
  w : Nat
  h : Nat
  dst : Nat
  stride : Nat
deriving DecidableEq, Repr

/-- The pairs the store loop writes: `P[y][x]` at `DST_ADDR + y*DST_STRIDE + x` (R61), rows in order. -/
def Block.cells (b : Block) (P : Nat → Nat → Sample) : List Host.Cell :=
  (List.range b.h).flatMap fun (y : Nat) => (List.range b.w).map fun (x : Nat) =>
    ((addr b.dst b.stride (y : Int) (x : Int)).toNat, P y x)

/-- `MemWrite` of a whole block (R61, R66: all reads come before all writes; assumption 20). -/
def storeBlock (b : Block) (P : Nat → Nat → Sample) (s : State) : State :=
  { s with mem := Memory.writeAll s.mem (b.cells P) }

/-! ### The intermediate buffer -/

/-- The content of cell (row, column) of `TMP`: what the running command wrote there, else unspecified (R33). -/
def Tmp.read (t : Tmp) (row col : Nat) : Sample :=
  match t.rows[row]? with
  | some cells =>
    match cells[col]? with
    | some v => v
    | none => Config.freeTmp t.gen row col
  | none => Config.freeTmp t.gen row col

/-- The horizontal pass writes `TMP` (R137). -/
def fillTmp (rows : List (List Sample)) (s : State) : State :=
  { s with tmp := { s.tmp with rows := rows } }

/-- After the command the content of `TMP` is unspecified (R33): the next free value. -/
def releaseTmp (s : State) : State :=
  { s with tmp := ⟨s.freeCount, []⟩, freeCount := s.freeCount + 1 }

/-! ### The status register -/

/-- Error entry (R231): "exactly this: `ERR <- 1`, `ERRCODE <- e`, `DONE <- 1`, `BUSY <- 0`"; the never-cleared
record of R233 takes the code. -/
def errorEntry (e : ErrorKind) (s : State) : State :=
  { s with err := true, errCode := e.code, done := true, busy := false, errRecord := s.errRecord ++ [e.code] }

/-- `do_CLR()` (R203), the return from the halted state (R234): ignored while `BUSY` = 1. -/
def doClr (s : State) : State :=
  if s.busy then s else { s with done := false, err := false, errCode := 0 }

/-- Completion (R207): `BUSY <- 0`, `DONE <- 1`. -/
def complete (s : State) : State := { s with busy := false, done := true }

end Sys2Proof.Machine
end

