-- ==== Sys2Proof/Machine/Operands.lean ====
section
/-! DEFINITION. The operands of the commands: the class of an axis and its extents (R131, R132), and the exact sets of
addresses a command reads and writes (R60 to R65, R72). -/

namespace Sys2Proof.Machine

/-! ### Classes of an axis -/

/-- The class of one axis (R131). -/
inductive AxisClass where
  | copy
  | bilinear
  | full
deriving DecidableEq, Repr

/-- `class(step, f)` (R131). -/
def classOf (step : Nat) (f : Kernel) : AxisClass :=
  if step = Config.stepUnity ∧ f = Kernel.identity then .copy
  else if f.t0 = 0 ∧ f.t1 = 0 ∧ f.t2 = 0 ∧ f.t5 = 0 ∧ f.t6 = 0 ∧ f.t7 = 0 then .bilinear
  else .full

/-- Samples read before the output position (R132). -/
def AxisClass.before : AxisClass → Nat
  | .copy => 0
  | .bilinear => 0
  | .full => 3

/-- Samples read after the output position (R132). -/
def AxisClass.after : AxisClass → Nat
  | .copy => 0
  | .bilinear => 1
  | .full => 4

/-- `cx`, the class of the horizontal axis (R131). -/
def classX (c : InterCmd) : AxisClass := classOf c.stepX c.fx

/-- `cy`, the class of the vertical axis (R131). -/
def classY (c : InterCmd) : AxisClass := classOf c.stepY c.fy

/-! ### Sets of addresses -/

/-- A rectangle of addresses: row `r`, column `k` is `base + r*stride + k` (R60), in unbounded integers. -/
structure Rect where
  base : Int
  stride : Nat
  rows : Nat
  cols : Nat
deriving DecidableEq, Repr

/-- The first address of row `r`. -/
def Rect.rowStart (q : Rect) (r : Nat) : Int := q.base + (r : Int) * (q.stride : Int)

/-- Is `a` an address of the rectangle? -/
def Rect.covers (q : Rect) (a : Int) : Bool :=
  (List.range q.rows).any fun (r : Nat) => decide (q.rowStart r ≤ a) && decide (a < q.rowStart r + (q.cols : Int))

/-- Do two rectangles share an address? Row by row: two runs meet when each starts before the other ends. -/
def Rect.meets (p q : Rect) : Bool :=
  (List.range p.rows).any fun (r : Nat) => (List.range q.rows).any fun (t : Nat) =>
    decide (0 < p.cols) && decide (0 < q.cols) &&
    decide (p.rowStart r < q.rowStart t + (q.cols : Int)) && decide (q.rowStart t < p.rowStart r + (p.cols : Int))

/-- The lowest address (R65). -/
def Rect.lo (q : Rect) : Int := q.base

/-- The highest address (R65). -/
def Rect.hi (q : Rect) : Int := q.rowStart (q.rows - 1) + ((q.cols : Int) - 1)

/-- Every address lies in 0 to 2^32 - 1 (R227), by the lowest and the highest. -/
def Rect.inSpace (q : Rect) : Bool := decide (0 ≤ q.lo) && decide (q.hi ≤ (Config.addressSpace : Int) - 1)

/-- Every address of the rectangle is `Valid` (R53). -/
def Rect.allValid (q : Rect) (s : State) : Bool :=
  (List.range q.rows).all fun (r : Nat) => (List.range q.cols).all fun (k : Nat) => s.valid (q.rowStart r + (k : Int))

/-! ### Footprints -/

/-- The destination block of an inter command. -/
def interBlock (c : InterCmd) : Block := ⟨c.w, c.h, c.dstAddr, c.dstStride⟩

/-- The destination block of an intra command. -/
def intraBlock (c : IntraCmd) : Block := ⟨c.w, c.h, c.dstAddr, c.dstStride⟩

/-- The destination block of a command. -/
def blockOf : Instr → Block
  | .interPut c => interBlock c
  | .interAvg c => interBlock c
  | .intraV c => intraBlock c
  | .intraH c => intraBlock c
  | .intraDc c => intraBlock c
  | .intraTm c => intraBlock c

/-- `WriteSet` (R61). -/
def Block.rect (b : Block) : Rect := ⟨b.dst, b.stride, b.h, b.w⟩

/-- `WriteSet` of a command (R61). -/
def writeSet (i : Instr) : Rect := (blockOf i).rect

/-- `WindowSet` (R62): rows `-by .. H-1+ay`, columns `-bx .. W-1+ax` about `SRC_ADDR`. -/
def windowSet (c : InterCmd) : Rect :=
  ⟨addr c.srcAddr c.srcStride (-((classY c).before : Int)) (-((classX c).before : Int)), c.srcStride,
   c.h + (classY c).before + (classY c).after, c.w + (classX c).before + (classX c).after⟩

/-- `AboveSet` (R64): `W` consecutive bytes. -/
def aboveSet (c : IntraCmd) : Rect := ⟨c.aboveAddr, 0, 1, c.w⟩

/-- `LeftSet` (R64): `H` consecutive bytes. -/
def leftSet (c : IntraCmd) : Rect := ⟨c.leftAddr, 0, 1, c.h⟩

/-- The sets a command reads apart from its own destination (R62, R64, R72). A set that is not listed is not read. -/
def sourceSets : Instr → List Rect
  | .interPut c => [windowSet c]
  | .interAvg c => [windowSet c]
  | .intraV c => [aboveSet c]
  | .intraH c => [leftSet c]
  | .intraDc c => (if c.hasAbove then [aboveSet c] else []) ++ (if c.hasLeft then [leftSet c] else [])
  | .intraTm c => [aboveSet c, leftSet c]

/-- The read set of a command (R62 to R64); INTER.AVG also reads its destination block (R63). -/
def readSets (i : Instr) : List Rect :=
  match i with
  | .interAvg _ => sourceSets i ++ [writeSet i]
  | .interPut _ => sourceSets i
  | .intraV _ => sourceSets i
  | .intraH _ => sourceSets i
  | .intraDc _ => sourceSets i
  | .intraTm _ => sourceSets i

/-- Every byte of the read set and of the write set is `Valid` (R53). -/
def footprintValid (i : Instr) (s : State) : Bool :=
  (writeSet i).allValid s && (sourceSets i).all fun q => q.allValid s

/-- The read set and the write set share a byte, INTER.AVG's own destination apart (R72). -/
def footprintOverlaps (i : Instr) : Bool := (sourceSets i).any fun q => q.meets (writeSet i)

end Sys2Proof.Machine
end

