-- ==== Sys2Proof/Machine/Checks.lean ====
section
/-! DEFINITION. The seven checks in their order (R230), and the frame every command runs in: checks first, then the
command, then `DONE` (R205, R206). -/

namespace Sys2Proof.Machine

/-- `ΣF`: the exact sum of a kernel's coefficients (R225). -/
def coeffSum (f : Kernel) : Int := f.taps.sum

/-- R222 fails: `W = 0`, `W > 64`, `H = 0` or `H > 64`. -/
def badSize (b : Block) : Bool :=
  decide (b.w = 0) || decide (Config.maxDim < b.w) || decide (b.h = 0) || decide (Config.maxDim < b.h)

/-- R223 fails: `DST_STRIDE < W`, or for an inter command `SRC_STRIDE < W`. -/
def badStride : Instr → Bool
  | .interPut c => decide (c.dstStride < c.w) || decide (c.srcStride < c.w)
  | .interAvg c => decide (c.dstStride < c.w) || decide (c.srcStride < c.w)
  | .intraV c => decide (c.dstStride < c.w)
  | .intraH c => decide (c.dstStride < c.w)
  | .intraDc c => decide (c.dstStride < c.w)
  | .intraTm c => decide (c.dstStride < c.w)

/-- A step other than 16 (R224). -/
def interBadStep (c : InterCmd) : Bool :=
  decide (c.stepX ≠ Config.stepUnity) || decide (c.stepY ≠ Config.stepUnity)

/-- R224 fails; the inter commands only. -/
def badStep : Instr → Bool
  | .interPut c => interBadStep c
  | .interAvg c => interBadStep c
  | .intraV _ => false
  | .intraH _ => false
  | .intraDc _ => false
  | .intraTm _ => false

/-- A kernel that does not sum to 128 (R225). -/
def interBadCoeff (c : InterCmd) : Bool :=
  decide (coeffSum c.fx ≠ Config.kernelUnity) || decide (coeffSum c.fy ≠ Config.kernelUnity)

/-- R225 fails; the inter commands only. -/
def badCoeff : Instr → Bool
  | .interPut c => interBadCoeff c
  | .interAvg c => interBadCoeff c
  | .intraV _ => false
  | .intraH _ => false
  | .intraDc _ => false
  | .intraTm _ => false

/-- R226 fails: a mode without the neighbor set it requires; INTRA.DC never raises it. -/
def badNeighbor : Instr → Bool
  | .interPut _ => false
  | .interAvg _ => false
  | .intraV c => !c.hasAbove
  | .intraH c => !c.hasLeft
  | .intraDc _ => false
  | .intraTm c => !c.hasAbove || !c.hasLeft

/-- R227 fails: some set the command reads or writes leaves 0 to 2^32 - 1. -/
def badAddr (i : Instr) : Bool := !((writeSet i).inSpace && (sourceSets i).all fun q => q.inSpace)

/-- `first_failing_check` of a decoded command (R230): the lowest failing code; `none` is 0, no error. -/
def firstFailingCheck (i : Instr) : Option ErrorKind :=
  if badSize (blockOf i) then some .size
  else if badStride i then some .stride
  else if badStep i then some .step
  else if badCoeff i then some .coeff
  else if badNeighbor i then some .neighbor
  else if badAddr i then some .addr
  else none

/-- A command that has passed every check has its effect if its launch keeps the contracts the engine cannot see: a
footprint outside `Valid` is a fault (R53, U1), a source set that meets the destination is refused (R72, R229, U5).
The order of the two is the model's (assumption 10). -/
def launch (i : Instr) (effect : State → State) (s : State) : Host.Outcome State Fault Refusal :=
  if !footprintValid i s then .fault .launchMemory
  else if footprintOverlaps i then .refused .overlap
  else .next (effect s)

/-- The frame of every command (R205, R206): a failing check is recorded and nothing else happens (R231); otherwise the
command's effect, then `BUSY <- 0`, `DONE <- 1` (R207). -/
def runCommand (i : Instr) (effect : State → State) (s : State) : Host.Outcome State Fault Refusal :=
  match firstFailingCheck i with
  | some e => .next (errorEntry e s)
  | none => launch i (fun t => complete (effect t)) s

end Sys2Proof.Machine
end

