-- ==== Sys2Proof/Machine/Control.lean ====
section
/-! DEFINITION. The host's register operations (R200 to R204, R208, R209), the reset input (R250 to R252), and the
memory accesses of other agents under the race rule (R70). -/

namespace Sys2Proof.Machine

/-! ### Registers -/

/-- `do_START()` (R202): accepted iff `BUSY` = 0 and `ERR` = 0; it latches `DESC` into `CMD`. Otherwise ignored (R209).
From here the command is in flight (R67, R256). -/
def doStart (s : State) : State :=
  if s.busy || s.err then s
  else { s with cmd := s.desc, busy := true, done := false, inFlight := s.inFlight ++ [s.desc] }

/-- A write of `v` to `CTRL` (R25, R204): `CLR` acts first, `START` second; bits 31:2 are ignored. -/
def writeCtrl (v : Word) (s : State) : State :=
  let t := if field v 1 1 = 1 then doClr s else s
  if field v 0 0 = 1 then doStart t else t

/-- `RegWrite(i, v)` (R200): `STATUS` is read-only and indices 18 and above do not exist. -/
def regWrite (i : Nat) (v : Word) (s : State) : State :=
  if h : i < 16 then { s with desc := s.desc.set i v }
  else if i = 16 then writeCtrl v s
  else s

/-- `RegRead(i)` (R201): `CTRL` and the indices 18 and above read as 0. -/
def regRead (i : Nat) (s : State) : Word :=
  if h : i < 16 then s.desc[i]
  else if i = 17 then s.status
  else 0

/-- The host address of register index `i`: byte offset `4*i` from `REG_BASE` (R21). -/
def regAddress (i : Nat) : Nat := Config.regBase + 4 * i

/-- The host has read register `i`: the value is returned, and a `STATUS` read that returns `DONE` = 1 and `ERR` = 0 is the
release point of every command in flight (R68, R258, assumption 12). No hardware state changes (R201). -/
def hostRead (i : Nat) (s : State) : State :=
  { s with reply := some (regRead i s), inFlight := if i = 17 && s.done && !s.err then [] else s.inFlight }

/-! ### Commands in flight and other agents -/

/-- The command a latch holds, if it passes every check; a command stopped by a check reads and writes nothing
(R52, assumption 13). -/
def runnable (d : Descriptor) : Option Instr :=
  match decode d with
  | .ok i => if firstFailingCheck i = none then some i else none
  | .error _ => none

/-- Does a command in flight read the byte at `a`? (R62 to R64) -/
def readInFlight (s : State) (a : Nat) : Bool :=
  s.inFlight.any fun d => (runnable d).any fun i => (readSets i).any fun q => q.covers a

/-- Does a command in flight write the byte at `a`? (R61) -/
def writtenInFlight (s : State) (a : Nat) : Bool :=
  s.inFlight.any fun d => (runnable d).any fun i => (writeSet i).covers a

/-- Another agent reads the byte at `a`: a race if a command in flight writes it (R70, R257, R258); no memory outside `Valid`
(assumption 16). -/
def agentRead (a : Nat) (s : State) : Host.Outcome State Fault Refusal :=
  if !s.valid a then .fault .hostMemory
  else if writtenInFlight s a then .fault .race
  else .next { s with reply := some ((Memory.read s.mem a).setWidth 32) }

/-- Another agent writes the byte at `a`: a race if a command in flight reads or writes it (R70, R256, R257). -/
def agentWrite (a : Nat) (v : Byte) (s : State) : Host.Outcome State Fault Refusal :=
  if !s.valid a then .fault .hostMemory
  else if writtenInFlight s a || readInFlight s a then .fault .race
  else .next { s with mem := Memory.write s.mem a v }

/-! ### The reset input -/

/-- The engine's registers after reset (R35, R250): `DESC` and `STATUS` zero, `CMD` and `TMP` unspecified (free values,
assumptions 2 and 3). No command is in flight any more; the never-cleared record stays (R233). -/
def resetRegisters (s : State) : State :=
  { s with
    desc := Vector.replicate 16 0, busy := false, done := false, err := false, errCode := 0
    cmd := Vector.ofFn fun i => Config.freeCmdWord s.freeCount i.val
    tmp := ⟨s.freeCount, []⟩, inFlight := [], freeCount := s.freeCount + 1 }

/-- A command cut off by reset leaves every byte of its write set at any value (R252, assumption 4). -/
def abandonWrites (i : Instr) (s : State) : State :=
  storeBlock (blockOf i)
    (fun y x => Config.freeByte s.freeCount (addr (blockOf i).dst (blockOf i).stride y x).toNat) s

/-- The reset input, at any time and in any state (R250, R252): it touches memory only where it cuts off a command that passes
its checks, whether or not that command's `EXEC` would keep its contract (U13, assumption 15). -/
def resetInput (s : State) : State :=
  match s.busy, runnable s.cmd with
  | true, some i => resetRegisters (abandonWrites i s)
  | true, none => resetRegisters s
  | false, _ => resetRegisters s

end Sys2Proof.Machine
end

