-- ==== Sys2Proof/Machine/Filter.lean ====
section
/-! DEFINITION. Unit 1, the fixed-point filter kernel: multiply-accumulate, round, saturate (R110 to R115), and the
clamp that the intra unit shares (R10). -/

namespace Sys2Proof.Machine

/-- `sat8(v) = clamp(v, 0, 255)` as an 8-bit Sample (R10, R113). -/
def sat8 (v : Int) : Sample := BitVec.ofNat 8 (min v.toNat 255)

/-- `MAC(s, f)` (R110): the exact sum of the products of unsigned samples and signed coefficients. -/
def mac : List Sample → List Int → Int
  | s :: ss, f :: fs => (s.toNat : Int) * f + mac ss fs
  | [], _ => 0
  | _ :: _, [] => 0

/-- `ROUND(a) = floor((a + 64) / 128)` (R111). -/
def roundShift (a : Int) : Int := (a + Config.roundAdd) / 2 ^ Config.filterBits

/-- `apply_kernel(s, f) = SAT(ROUND(MAC(s, f)))` (R114), the one definition every variant must reproduce. -/
def applyKernel (s : List Sample) (f : List Int) : Sample := sat8 (roundShift (mac s f))

/-- The 2-tap form `K2` on the live taps `f[3]` and `f[4]` (R115, R133). -/
def k2 (s3 s4 : Sample) (f : Kernel) : Sample := applyKernel [s3, s4] [f.t3, f.t4]

/-- The 8-tap form `K8` on the samples about position `p` (R114, R133): tap `k` multiplies the sample at `p + k - 3`. -/
def k8 (line : Int → Sample) (p : Int) (f : Kernel) : Sample :=
  applyKernel [line (p - 3), line (p - 2), line (p - 1), line p, line (p + 1), line (p + 2), line (p + 3), line (p + 4)] f.taps

end Sys2Proof.Machine
end

