-- ==== Sys2Proof/Machine/Convolve.lean ====
section
/-! DEFINITION. Unit 2, the separable convolution (R130 to R145), and INTER.PUT (R146). -/

namespace Sys2Proof.Machine

/-- `ref[r][k]` (R62): a sample of the reference plane about the block origin. -/
def refSample (m : Memory) (c : InterCmd) (r k : Int) : Sample := memRead m (addr c.srcAddr c.srcStride r k)

/-- `FILT` by class (R133); `line` is evaluated only at positions `p - b` to `p + a`. -/
def filt (cls : AxisClass) (f : Kernel) (line : Int → Sample) (p : Int) : Sample :=
  match cls with
  | .copy => line p
  | .bilinear => k2 (line p) (line (p + 1)) f
  | .full => k8 line p f

/-- `HP(r, x)` (R134): always a complete Sample, rounded and saturated (R141). -/
def horizontal (m : Memory) (c : InterCmd) (r x : Int) : Sample :=
  filt (classX c) c.fx (fun k => refSample m c r k) x

/-- `VP(col, y)` (R135). -/
def vertical (c : InterCmd) (col : Int → Sample) (y : Int) : Sample := filt (classY c) c.fy col y

/-- The rows the horizontal pass writes: `T[r][x]` for `-by <= r <= H-1+ay`, row-major (R137). -/
def intermediateRows (m : Memory) (c : InterCmd) : List (List Sample) :=
  (List.range (c.h + (classY c).before + (classY c).after)).map fun (i : Nat) =>
    (List.range c.w).map fun (x : Nat) => horizontal m c ((i : Int) - ((classY c).before : Int)) (x : Int)

/-- Neither axis is COPY, so the horizontal pass goes through `TMP` (R137, R138); no other command touches it
(assumption 8). -/
def twoPass (c : InterCmd) : Bool := decide (classX c ≠ .copy) && decide (classY c ≠ .copy)

/-- The horizontal pass of a two-pass command, before the vertical pass starts (R141). -/
def firstPass (c : InterCmd) (s : State) : State :=
  if twoPass c then fillTmp (intermediateRows s.mem c) s else s

/-- `P[y][x]` (R139), computed as R136 to R138 say: a block copy, one pass on the reference window itself, or the vertical
pass over the rows in `TMP`. -/
def predictor (c : InterCmd) (s : State) (y x : Nat) : Sample :=
  match classX c, classY c with
  | .copy, .copy => refSample s.mem c y x
  | _, .copy => horizontal s.mem c y x
  | .copy, _ => vertical c (fun r => refSample s.mem c r x) y
  | _, _ => vertical c (fun r => s.tmp.read (r + ((classY c).before : Int)).toNat x) y

/-- After a two-pass command the content of `TMP` is unspecified again (R33). -/
def lastPass (c : InterCmd) (s : State) : State := if twoPass c then releaseTmp s else s

/-- What INTER.PUT does once its checks have passed (R146). -/
def interPutEffect (c : InterCmd) (s : State) : State :=
  lastPass c (storeBlock (interBlock c) (predictor c (firstPass c s)) (firstPass c s))

/-- INTER.PUT (R146). -/
def execInterPut (c : InterCmd) (s : State) : Host.Outcome State Fault Refusal :=
  runCommand (.interPut c) (interPutEffect c) s

end Sys2Proof.Machine
end

