-- ==== Sys2Proof/Machine/Blend.lean ====
section
/-! DEFINITION. Unit 3, the compound blend stage (R160 to R164), and INTER.AVG (R162). -/

namespace Sys2Proof.Machine

/-- `BLEND(d, n) = (d + n + 1) >> 1` (R160), formed exactly; it never exceeds 255. -/
def blend (d n : Sample) : Sample := BitVec.ofNat 8 ((d.toNat + n.toNat + 1) / 2)

/-- `dst[y][x]` (R61): the byte of the destination block, read before it is written (R63, R66). -/
def dstSample (m : Memory) (b : Block) (y x : Nat) : Sample := memRead m (addr b.dst b.stride y x)

/-- What INTER.AVG does once its checks have passed (R162): the same `P` as INTER.PUT (R163), blended into the
destination. -/
def interAvgEffect (c : InterCmd) (s : State) : State :=
  lastPass c (storeBlock (interBlock c)
    (fun y x => blend (dstSample s.mem (interBlock c) y x) (predictor c (firstPass c s) y x)) (firstPass c s))

/-- INTER.AVG (R162). -/
def execInterAvg (c : InterCmd) (s : State) : Host.Outcome State Fault Refusal :=
  runCommand (.interAvg c) (interAvgEffect c) s

end Sys2Proof.Machine
end

