-- ==== Sys2Proof/Machine/Intra.lean ====
section
/-! DEFINITION. Unit 4, the spatial predictors (R170 to R182), and INTRA.V, INTRA.H, INTRA.DC, INTRA.TM (R176 to R179). -/

namespace Sys2Proof.Machine

/-- `above[x]`, the byte at `ABOVE_ADDR + x` (R64, R170). -/
def aboveSample (m : Memory) (c : IntraCmd) (x : Nat) : Sample := memRead m ((c.aboveAddr : Int) + (x : Int))

/-- `left[y]`, the byte at `LEFT_ADDR + y` (R64, R170). -/
def leftSample (m : Memory) (c : IntraCmd) (y : Nat) : Sample := memRead m ((c.leftAddr : Int) + (y : Int))

/-- `SA` (R175). -/
def aboveSum (m : Memory) (c : IntraCmd) : Nat := ((List.range c.w).map fun (x : Nat) => (aboveSample m c x).toNat).sum

/-- `SL` (R175). -/
def leftSum (m : Memory) (c : IntraCmd) : Nat := ((List.range c.h).map fun (y : Nat) => (leftSample m c y).toNat).sum

/-- The DC value `v` (R175): the rounded mean of the sets that exist, 128 where none does. -/
def dcValue (m : Memory) (c : IntraCmd) : Nat :=
  match c.hasAbove, c.hasLeft with
  | true, true => (aboveSum m c + leftSum m c + (c.w + c.h) / 2) / (c.w + c.h)
  | true, false => (aboveSum m c + c.w / 2) / c.w
  | false, true => (leftSum m c + c.h / 2) / c.h
  | false, false => Config.neutral

/-- Vertical: `P[y][x] = above[x]` (R173). -/
def predictV (m : Memory) (c : IntraCmd) (_y x : Nat) : Sample := aboveSample m c x

/-- Horizontal: `P[y][x] = left[y]` (R174). -/
def predictH (m : Memory) (c : IntraCmd) (y _x : Nat) : Sample := leftSample m c y

/-- DC: `P[y][x] = v`; `v` is always 0 to 255 (R175). -/
def dcSample (m : Memory) (c : IntraCmd) : Sample := BitVec.ofNat 8 (dcValue m c)

/-- What INTRA.DC does once its checks have passed (R178): one value fills the block. -/
def intraDcEffect (c : IntraCmd) (s : State) : State :=
  let v := dcSample s.mem c
  storeBlock (intraBlock c) (fun _ _ => v) s

/-- TrueMotion: `P[y][x] = clamp(above[x] + left[y] - corner, 0, 255)` (R180). -/
def predictTm (m : Memory) (c : IntraCmd) (y x : Nat) : Sample :=
  sat8 (((aboveSample m c x).toNat : Int) + ((leftSample m c y).toNat : Int) - (c.corner : Int))

/-- What INTRA.V does once its checks have passed (R176). -/
def intraVEffect (c : IntraCmd) (s : State) : State := storeBlock (intraBlock c) (predictV s.mem c) s

/-- What INTRA.H does once its checks have passed (R177). -/
def intraHEffect (c : IntraCmd) (s : State) : State := storeBlock (intraBlock c) (predictH s.mem c) s

/-- What INTRA.TM does once its checks have passed (R179). -/
def intraTmEffect (c : IntraCmd) (s : State) : State := storeBlock (intraBlock c) (predictTm s.mem c) s

/-- INTRA.V (R176): `HAS_LEFT`, `LEFT_ADDR` and `CORNER` are ignored. -/
def execIntraV (c : IntraCmd) (s : State) : Host.Outcome State Fault Refusal :=
  runCommand (.intraV c) (intraVEffect c) s

/-- INTRA.H (R177): `HAS_ABOVE`, `ABOVE_ADDR` and `CORNER` are ignored. -/
def execIntraH (c : IntraCmd) (s : State) : Host.Outcome State Fault Refusal :=
  runCommand (.intraH c) (intraHEffect c) s

/-- INTRA.DC (R178): all four flag combinations are defined; `CORNER` is ignored. -/
def execIntraDc (c : IntraCmd) (s : State) : Host.Outcome State Fault Refusal :=
  runCommand (.intraDc c) (intraDcEffect c) s

/-- INTRA.TM (R179): the corner is always the `CORNER` field. -/
def execIntraTm (c : IntraCmd) (s : State) : Host.Outcome State Fault Refusal :=
  runCommand (.intraTm c) (intraTmEffect c) s

end Sys2Proof.Machine
end

