-- ==== Sys2Proof/Machine/Dispatch.lean ====
section
/-! DEFINITION. The body of `EXEC` on a decoded command (R205): one arm per command of R91. -/

namespace Sys2Proof.Machine

def exec (i : Instr) (s : State) : Host.Outcome State Fault Refusal :=
  match i with
  | .interPut c => Sys2Proof.Machine.execInterPut c s
  | .interAvg c => Sys2Proof.Machine.execInterAvg c s
  | .intraV c => Sys2Proof.Machine.execIntraV c s
  | .intraH c => Sys2Proof.Machine.execIntraH c s
  | .intraDc c => Sys2Proof.Machine.execIntraDc c s
  | .intraTm c => Sys2Proof.Machine.execIntraTm c s

end Sys2Proof.Machine
end

