-- ==== Sys2Proof/Machine/Engine.lean ====
section
/-! DEFINITION. The engine's step `EXEC` (R205), the actions of the outside world (R7, R102), and the placing of a
command in the latch. -/

namespace Sys2Proof.Machine

/-- `EXEC` (R205): decode and run `CMD`, never `DESC` (R32); an illegal latch is `ERR_ILLEGAL` (R221). -/
def execLatch (s : State) : Host.Outcome State Fault Refusal :=
  match decode s.cmd with
  | .ok i => exec i s
  | .error _ => .next (errorEntry .illegal s)

/-- The engine's turn: `EXEC` is enabled iff `BUSY` = 1, and an idle engine does nothing (R205, R240). -/
def engineTurn (s : State) : Host.Outcome State Fault Refusal :=
  if s.busy then execLatch s else .next s

/-- The first action of the agenda (assumption 11), already taken off `s`. A `wait` that reads `DONE` = 0 polls again after the
engine's turn (R102, R210). -/
def perform (a : Action) (s : State) : Host.Outcome State Fault Refusal :=
  match a with
  | .regWrite i v => .next (regWrite i v s)
  | .regRead i => .next (hostRead i s)
  | .wait =>
    if s.done then .next (hostRead 17 s) else engineTurn { hostRead 17 s with agenda := .wait :: s.agenda }
  | .memRead a => agentRead a s
  | .memWrite a v => agentWrite a v s
  | .reset => .next (resetInput s)
  | .engine => engineTurn s

/-- Assumption 9: the state right after a `START` that found `d` in `DESC` was accepted and with nothing else scheduled: what the
next step runs is `d` (R32, R202). -/
def latchCommand (d : Descriptor) (s : State) : State :=
  { s with cmd := d, busy := true, done := false, err := false, errCode := 0, inFlight := s.inFlight ++ [d], agenda := [] }

end Sys2Proof.Machine
end

