-- ==== Sys2Proof/Machine/Step.lean ====
section
/-! DEFINITION. One step of the machine: the next action of the agenda, and the engine's own turn where nothing is
scheduled (R205); and the placing of an instruction where the next step runs it. -/

namespace Sys2Proof.Machine

/-- One step: the agenda's first action, or the engine's turn where the agenda is empty (assumption 11). -/
def step (s : State) : Host.Outcome State Fault Refusal :=
  match s.agenda with
  | [] => engineTurn s
  | a :: rest => perform a { s with agenda := rest }

/-- The command whose bits are `w` (nothing from bit `nbits` up) in the latch, accepted and not yet run, with nothing
scheduled: the very next step runs it. The engine fetches nothing (R24); `CMD` is where it takes a command from (R32). -/
def State.withFetchWord (s : State) (nbits w : Nat) : State := latchCommand (descriptorOfBits nbits w) s

end Sys2Proof.Machine
end

