-- ==== Sys2Proof/Machine/Assembler.lean ====
section
/-! DEFINITION. The command-line notation and the host script of this spec (R97 to R102): operands with their defaults,
the pseudo-instructions, the text form, and the actions a script stands for. It adds no encoding. -/

namespace Sys2Proof.Machine

/-! ### Command lines -/

/-- The mnemonics of R98 and R99 and the pseudo-instructions of R101. -/
inductive AsmMnemonic where
  | interPut
  | interAvg
  | intraV
  | intraH
  | intraDc
  | intraTm
  | copy
  | avg
  | horizPut
  | horizAvg
  | vertPut
  | vertAvg
deriving DecidableEq, Repr

/-- The operand names of R98 and R99. -/
inductive AsmName where
  | dst
  | ds
  | src
  | ss
  | w
  | h
  | sx
  | sy
  | fx
  | fy
  | above
  | left
  | ha
  | hl
  | corner
deriving DecidableEq, Repr

/-- An operand's value: a number or a kernel (R97). -/
inductive AsmValue where
  | num (n : Nat)
  | kernel (f : Kernel)
deriving DecidableEq, Repr

/-- A command line: a mnemonic and `name=value` operands in any order (R97). -/
structure AsmLine where
  mnemonic : AsmMnemonic
  operands : List (AsmName × AsmValue)
deriving DecidableEq, Repr

/-- The value given for a name, if any. -/
def asmFind (l : AsmLine) (n : AsmName) : Option AsmValue :=
  (l.operands.find? fun p => decide (p.1 = n)).map fun p => p.2

/-- A number operand; `default` where the operand is omitted (R100), and no assembly where it is required or a kernel. -/
def asmNum (l : AsmLine) (n : AsmName) (default : Option Nat) : Option Nat :=
  match asmFind l n with
  | none => default
  | some (.num v) => some v
  | some (.kernel _) => none

/-- A kernel operand; `default` where the operand is omitted (R100). -/
def asmKernel (l : AsmLine) (n : AsmName) (default : Option Kernel) : Option Kernel :=
  match asmFind l n with
  | none => default
  | some (.kernel f) => some f
  | some (.num _) => none

/-- A flag operand, 0 or 1, default 1 (R99, R100). -/
def asmFlag (l : AsmLine) (n : AsmName) : Option Bool :=
  match asmNum l n (some 1) with
  | some 0 => some false
  | some 1 => some true
  | _ => none

/-- The record of an inter line (R98), with the given defaults of `fx` and `fy` (R100, R101). -/
def asmInter (l : AsmLine) (fx fy : Option Kernel) : Option InterCmd := do
  let dst ← asmNum l .dst none
  let ds ← asmNum l .ds none
  let src ← asmNum l .src none
  let ss ← asmNum l .ss none
  let w ← asmNum l .w none
  let h ← asmNum l .h none
  let sx ← asmNum l .sx (some Config.stepUnity)
  let sy ← asmNum l .sy (some Config.stepUnity)
  let fx ← asmKernel l .fx fx
  let fy ← asmKernel l .fy fy
  pure { w := w, h := h, dstAddr := dst, dstStride := ds, srcAddr := src, srcStride := ss, stepX := sx, stepY := sy, fx := fx, fy := fy }

/-- The record of an intra line (R99) with the defaults of R100. -/
def asmIntra (l : AsmLine) : Option IntraCmd := do
  let dst ← asmNum l .dst none
  let ds ← asmNum l .ds none
  let w ← asmNum l .w none
  let h ← asmNum l .h none
  let above ← asmNum l .above (some 0)
  let left ← asmNum l .left (some 0)
  let ha ← asmFlag l .ha
  let hl ← asmFlag l .hl
  let corner ← asmNum l .corner (some Config.neutral)
  pure { hasAbove := ha, hasLeft := hl, corner := corner, w := w, h := h, dstAddr := dst, dstStride := ds, aboveAddr := above, leftAddr := left }

/-- The operands an inter line, an intra line and a pseudo-instruction may have (R98, R99, R101). -/
def asmAllowed : AsmMnemonic → List AsmName
  | .interPut => [.dst, .ds, .src, .ss, .w, .h, .sx, .sy, .fx, .fy]
  | .interAvg => [.dst, .ds, .src, .ss, .w, .h, .sx, .sy, .fx, .fy]
  | .intraV => [.dst, .ds, .w, .h, .above, .left, .ha, .hl, .corner]
  | .intraH => [.dst, .ds, .w, .h, .above, .left, .ha, .hl, .corner]
  | .intraDc => [.dst, .ds, .w, .h, .above, .left, .ha, .hl, .corner]
  | .intraTm => [.dst, .ds, .w, .h, .above, .left, .ha, .hl, .corner]
  | .copy => [.dst, .ds, .src, .ss, .w, .h]
  | .avg => [.dst, .ds, .src, .ss, .w, .h]
  | .horizPut => [.dst, .ds, .src, .ss, .w, .h, .fx]
  | .horizAvg => [.dst, .ds, .src, .ss, .w, .h, .fx]
  | .vertPut => [.dst, .ds, .src, .ss, .w, .h, .fy]
  | .vertAvg => [.dst, .ds, .src, .ss, .w, .h, .fy]

/-- The command a line names, before its fields are held against their ranges. -/
def asmCommand (l : AsmLine) : Option Instr :=
  let id := some Kernel.identity
  match l.mnemonic with
  | .interPut => (asmInter l id id).map .interPut
  | .interAvg => (asmInter l id id).map .interAvg
  | .intraV => (asmIntra l).map .intraV
  | .intraH => (asmIntra l).map .intraH
  | .intraDc => (asmIntra l).map .intraDc
  | .intraTm => (asmIntra l).map .intraTm
  | .copy => (asmInter l id id).map .interPut
  | .avg => (asmInter l id id).map .interAvg
  | .horizPut => (asmInter l none id).map .interPut
  | .horizAvg => (asmInter l none id).map .interAvg
  | .vertPut => (asmInter l id none).map .interPut
  | .vertAvg => (asmInter l id none).map .interAvg

/-- The command a line assembles to (R97 to R101): an operand the line may not have, an operand given twice, and a value
its field cannot hold do not assemble (assumption 14). -/
def assemble (l : AsmLine) : Option Instr :=
  let names := l.operands.map fun p => p.1
  if (names.all fun n => decide (n ∈ asmAllowed l.mnemonic)) && decide names.Nodup then
    (asmCommand l).filter fun i => i.wellFormed
  else none

/-! ### Text -/

/-- A mnemonic, in any letter case (R97). -/
def mnemonicOfText (t : List Char) : Option AsmMnemonic :=
  [("inter.put", AsmMnemonic.interPut), ("inter.avg", .interAvg), ("intra.v", .intraV), ("intra.h", .intraH),
   ("intra.dc", .intraDc), ("intra.tm", .intraTm), ("copy", .copy), ("avg", .avg), ("horiz.put", .horizPut),
   ("horiz.avg", .horizAvg), ("vert.put", .vertPut), ("vert.avg", .vertAvg)].lookup (String.ofList (t.map Char.toLower))

/-- An operand name (R98, R99). -/
def nameOfText (t : List Char) : Option AsmName :=
  [("dst", AsmName.dst), ("ds", .ds), ("src", .src), ("ss", .ss), ("w", .w), ("h", .h), ("sx", .sx), ("sy", .sy), ("fx", .fx),
   ("fy", .fy), ("above", .above), ("left", .left), ("ha", .ha), ("hl", .hl), ("corner", .corner)].lookup (String.ofList t)

/-- Without the spaces at both ends. -/
def trimText (t : List Char) : List Char :=
  ((t.dropWhile fun c => decide (c = ' ')).reverse.dropWhile fun c => decide (c = ' ')).reverse

/-- The opening and the closing brace of a kernel (R97), as characters. -/
def openBrace : Char := Char.ofNat 123

/-- See `openBrace`. -/
def closeBrace : Char := Char.ofNat 125

/-- The pieces between the commas that stand outside braces. -/
def splitCommas : (inside : Bool) → (piece : List Char) → List Char → List (List Char)
  | _, piece, [] => [piece.reverse]
  | inside, piece, c :: rest =>
    if c = ',' ∧ inside = false then piece.reverse :: splitCommas false [] rest
    else splitCommas (if c = openBrace then true else if c = closeBrace then false else inside) (c :: piece) rest

/-- The value of a digit in base 16. -/
def hexDigit (c : Char) : Option Nat :=
  if '0' ≤ c ∧ c ≤ '9' then some (c.toNat - 48)
  else if 'a' ≤ c ∧ c ≤ 'f' then some (c.toNat - 87)
  else if 'A' ≤ c ∧ c ≤ 'F' then some (c.toNat - 55)
  else none

/-- Digits of a base, most significant first, after the value `acc`. -/
def digitsFrom (base acc : Nat) : List Char → Option Nat
  | [] => some acc
  | c :: rest =>
    match hexDigit c with
    | some d => if d < base then digitsFrom base (acc * base + d) rest else none
    | none => none

/-- A number: decimal, or hexadecimal after `0x` (R97). -/
def numberOfText : List Char → Option Nat
  | [] => none
  | '0' :: 'x' :: c :: rest => digitsFrom 16 0 (c :: rest)
  | c :: rest => digitsFrom 10 0 (c :: rest)

/-- A signed decimal (R97). -/
def coeffOfText (t : List Char) : Option Int :=
  match t with
  | [] => none
  | '-' :: c :: rest => (digitsFrom 10 0 (c :: rest)).map fun n => -(n : Int)
  | c :: rest => (digitsFrom 10 0 (c :: rest)).map fun n => (n : Int)

/-- The inside of a kernel: eight coefficients, tap 0 first (R97). -/
def kernelOfText (t : List Char) : Option Kernel :=
  match (splitCommas false [] t).map fun p => coeffOfText (trimText p) with
  | [some a, some b, some c, some d, some e, some f, some g, some h] => some ⟨a, b, c, d, e, f, g, h⟩
  | _ => none

/-- An operand's value: a kernel in braces, or a number (R97). -/
def valueOfText (t : List Char) : Option AsmValue :=
  match t with
  | [] => none
  | c :: rest =>
    if c = openBrace ∧ rest.getLast? = some closeBrace then (kernelOfText rest.dropLast).map .kernel
    else (numberOfText t).map .num

/-- One operand `name=value` (R97). -/
def operandOfText (t : List Char) : Option (AsmName × AsmValue) := do
  let name ← nameOfText (trimText (t.takeWhile fun c => decide (c ≠ '=')))
  let value ← valueOfText (trimText ((t.dropWhile fun c => decide (c ≠ '=')).drop 1))
  pure (name, value)

/-- A command line from its text: the mnemonic, then operands separated by commas (R97). -/
def lineOfText (text : String) : Option AsmLine := do
  let t := trimText text.toList
  let mnemonic ← mnemonicOfText (t.takeWhile fun c => decide (c ≠ ' '))
  let operands ← (splitCommas false [] (t.dropWhile fun c => decide (c ≠ ' '))).mapM operandOfText
  pure ⟨mnemonic, operands⟩

/-- The sixteen words a line of text assembles to (R97, R103). -/
def assembleText (text : String) : Option Descriptor := ((lineOfText text).bind assemble).map encode

/-! ### Host scripts -/

/-- A line of a host script (R102). -/
inductive ScriptLine where
  | wr (i : Nat) (v : Word)
  | rd (i : Nat)
  | cmd (i : Instr)
  | start
  | clr
  | wait
deriving DecidableEq, Repr

/-- The sixteen writes of a descriptor in index order. -/
def writeDescriptor (d : Descriptor) : List Action := (List.finRange 16).map fun k => Action.regWrite k.val d[k]

/-- The actions a script line stands for (R102). -/
def scriptActions : ScriptLine → List Action
  | .wr i v => [.regWrite i v]
  | .rd i => [.regRead i]
  | .cmd i => writeDescriptor (encode i)
  | .start => [.regWrite 16 1]
  | .clr => [.regWrite 16 2]
  | .wait => [.wait]

/-- The host's protocol for one command up to the poll of its completion (R211). -/
def commandScript (i : Instr) : List Action :=
  scriptActions (.cmd i) ++ scriptActions .start ++ scriptActions .wait

end Sys2Proof.Machine
end

