-- ==== Sys2Proof/Machine/Variant.lean ====
section
/-! DEFINITION. Unit 5, the size-specialized dispatcher: which variant it selects (R190, R191). The selection is not
observable (R194) and changes no byte (R192), so no meaning uses it: every command runs the generic rules. -/

namespace Sys2Proof.Machine

/-- The size part of a variant (R191). -/
inductive SizeVariant where
  | generic
  | width4
  | width8
  | width16
  | width32
  | width64
deriving DecidableEq, Repr

/-- The intra modes of R191. -/
inductive IntraMode where
  | v
  | h
  | dc
  | tm
deriving DecidableEq, Repr

/-- The dispatch key (R190): `(size, cx, cy, blend)` or `(size, mode)`. -/
inductive VariantKey where
  | inter (size : SizeVariant) (cx cy : AxisClass) (blend : Bool)
  | intra (size : SizeVariant) (mode : IntraMode)
deriving DecidableEq, Repr

/-- `size` (R190): a specialized variant only when both sides are in the specialized set, named by the width. -/
def sizeVariant (w h : Nat) : SizeVariant :=
  if w ∈ Config.specialSizes ∧ h ∈ Config.specialSizes then
    if w = 4 then .width4 else if w = 8 then .width8 else if w = 16 then .width16 else if w = 32 then .width32 else .width64
  else .generic

/-- The variant the dispatcher selects for a command (R190, R191). -/
def dispatchKey : Instr → VariantKey
  | .interPut c => .inter (sizeVariant c.w c.h) (classX c) (classY c) false
  | .interAvg c => .inter (sizeVariant c.w c.h) (classX c) (classY c) true
  | .intraV c => .intra (sizeVariant c.w c.h) .v
  | .intraH c => .intra (sizeVariant c.w c.h) .h
  | .intraDc c => .intra (sizeVariant c.w c.h) .dc
  | .intraTm c => .intra (sizeVariant c.w c.h) .tm

end Sys2Proof.Machine
end

