-- ==== Sys2Proof/Safety.lean ====
section
/-! DEFINITION. What claims are stated in: the address sets and the checks as the rules write them (set by set, not by
the model's own functions), the contract the engine cannot check (R229), the invariant of every step, and frames. -/

namespace Sys2Proof.Machine

/-! ### Address sets, as R61 to R64 write them -/

/-- `a ∈ WriteSet` (R61). -/
def InWriteSet (b : Block) (a : Int) : Prop :=
  ∃ y x : Nat, y < b.h ∧ x < b.w ∧ a = (b.dst : Int) + (y : Int) * (b.stride : Int) + (x : Int)

/-- `a ∈ WindowSet` (R62). -/
def InWindow (c : InterCmd) (a : Int) : Prop :=
  ∃ r k : Int, -((classY c).before : Int) ≤ r ∧ r ≤ (c.h : Int) - 1 + ((classY c).after : Int) ∧
    -((classX c).before : Int) ≤ k ∧ k ≤ (c.w : Int) - 1 + ((classX c).after : Int) ∧
    a = (c.srcAddr : Int) + r * (c.srcStride : Int) + k

/-- `a ∈ AboveSet` (R64). -/
def InAbove (c : IntraCmd) (a : Int) : Prop := ∃ x : Nat, x < c.w ∧ a = (c.aboveAddr : Int) + (x : Int)

/-- `a ∈ LeftSet` (R64). -/
def InLeft (c : IntraCmd) (a : Int) : Prop := ∃ y : Nat, y < c.h ∧ a = (c.leftAddr : Int) + (y : Int)

/-- `a` is in a set the command reads, its own destination apart (R62, R64). -/
def InSource (i : Instr) (a : Int) : Prop :=
  match i with
  | .interPut c => InWindow c a
  | .interAvg c => InWindow c a
  | .intraV c => InAbove c a
  | .intraH c => InLeft c a
  | .intraDc c => (c.hasAbove = true ∧ InAbove c a) ∨ (c.hasLeft = true ∧ InLeft c a)
  | .intraTm c => InAbove c a ∨ InLeft c a

/-- `a` is in the read set of the command: INTER.AVG also reads its destination (R63). -/
def InReadSet (i : Instr) (a : Int) : Prop :=
  match i with
  | .interAvg c => InWindow c a ∨ InWriteSet (interBlock c) a
  | .interPut _ => InSource i a
  | .intraV _ => InSource i a
  | .intraH _ => InSource i a
  | .intraDc _ => InSource i a
  | .intraTm _ => InSource i a

/-! ### The checks, as R222 to R227 write them -/

/-- R222 holds of a block. -/
def SizeOk (b : Block) : Prop := 1 ≤ b.w ∧ b.w ≤ 64 ∧ 1 ≤ b.h ∧ b.h ≤ 64

/-- R227 holds: every address the command would use lies in 0 to 2^32 - 1 (R60). -/
def AddrOk (i : Instr) : Prop :=
  ∀ a, InSource i a ∨ InWriteSet (blockOf i) a → 0 ≤ a ∧ a < 4294967296

/-- The highest address of the write set leaves the address space (R65, R227). -/
def EndsOutside (b : Block) : Prop := b.dst + (b.h - 1) * b.stride + (b.w - 1) > 4294967295

/-- The inter-only checks R223 (source stride), R224 and R225. -/
def InterOk (c : InterCmd) : Prop :=
  c.w ≤ c.dstStride ∧ c.w ≤ c.srcStride ∧ c.stepX = 16 ∧ c.stepY = 16 ∧
  c.fx.t0 + c.fx.t1 + c.fx.t2 + c.fx.t3 + c.fx.t4 + c.fx.t5 + c.fx.t6 + c.fx.t7 = 128 ∧
  c.fy.t0 + c.fy.t1 + c.fy.t2 + c.fy.t3 + c.fy.t4 + c.fy.t5 + c.fy.t6 + c.fy.t7 = 128

/-- Every check of the command passes (R222 to R227). -/
def ChecksPass (i : Instr) : Prop :=
  SizeOk (blockOf i) ∧ AddrOk i ∧
  match i with
  | .interPut c => InterOk c
  | .interAvg c => InterOk c
  | .intraV c => c.w ≤ c.dstStride ∧ c.hasAbove = true
  | .intraH c => c.w ≤ c.dstStride ∧ c.hasLeft = true
  | .intraDc c => c.w ≤ c.dstStride
  | .intraTm c => c.w ≤ c.dstStride ∧ c.hasAbove = true ∧ c.hasLeft = true

/-- R223 is broken: `DST_STRIDE < W`, or for an inter command `SRC_STRIDE < W`. -/
def StrideBroken (i : Instr) : Prop :=
  (blockOf i).stride < (blockOf i).w ∨
  match i with
  | .interPut c => c.srcStride < c.w
  | .interAvg c => c.srcStride < c.w
  | .intraV _ => False
  | .intraH _ => False
  | .intraDc _ => False
  | .intraTm _ => False

/-- R224 is broken, by an inter command: a step other than 16. -/
def StepBroken (i : Instr) : Prop :=
  match i with
  | .interPut c => c.stepX ≠ 16 ∨ c.stepY ≠ 16
  | .interAvg c => c.stepX ≠ 16 ∨ c.stepY ≠ 16
  | .intraV _ => False
  | .intraH _ => False
  | .intraDc _ => False
  | .intraTm _ => False

/-- `ΣF != 128` (R225). -/
def NotNormalized (f : Kernel) : Prop := f.t0 + f.t1 + f.t2 + f.t3 + f.t4 + f.t5 + f.t6 + f.t7 ≠ 128

/-- R225 is broken, by an inter command: a kernel that does not sum to 128. -/
def CoeffBroken (i : Instr) : Prop :=
  match i with
  | .interPut c => NotNormalized c.fx ∨ NotNormalized c.fy
  | .interAvg c => NotNormalized c.fx ∨ NotNormalized c.fy
  | .intraV _ => False
  | .intraH _ => False
  | .intraDc _ => False
  | .intraTm _ => False

/-- R226 is broken: INTRA.V without the above row, INTRA.H without the left column, INTRA.TM without either. -/
def NeighborBroken (i : Instr) : Prop :=
  match i with
  | .interPut _ => False
  | .interAvg _ => False
  | .intraV c => c.hasAbove = false
  | .intraH c => c.hasLeft = false
  | .intraDc _ => False
  | .intraTm c => c.hasAbove = false ∨ c.hasLeft = false

/-- Every byte of the footprint is `Valid` (R53). -/
def FootprintValid (i : Instr) (s : State) : Prop := ∀ a, InSource i a ∨ InWriteSet (blockOf i) a → s.valid a = true

/-- The contract the engine cannot check (R229): every byte of the footprint is `Valid` (R53), and no byte is both read
and written, INTER.AVG's own destination apart (R72). -/
def ContractKept (i : Instr) (s : State) : Prop :=
  FootprintValid i s ∧ (∀ a, InSource i a → ¬ InWriteSet (blockOf i) a)

/-! ### Frames -/

/-- `t` differs from `s` at most in memory, `BUSY`, `DONE`, `TMP` and the count of free values: `DESC`, `ERR`, `ERRCODE`,
`CMD`, `Valid`, the agenda, the host's reply, the commands in flight and the error record are as before. -/
def SameButBlock (s t : State) : Prop :=
  t.desc = s.desc ∧ t.err = s.err ∧ t.errCode = s.errCode ∧ t.cmd = s.cmd ∧ t.regions = s.regions ∧ t.agenda = s.agenda ∧
  t.reply = s.reply ∧ t.inFlight = s.inFlight ∧ t.errRecord = s.errRecord

/-- The command has completed (R207): `BUSY` 0, `DONE` 1, and beside its block nothing else has changed. -/
def Completed (s t : State) : Prop := t.busy = false ∧ t.done = true ∧ SameButBlock s t

/-- `TMP` is as before, and no free value has been drawn (R33, R138). -/
def TmpKept (s t : State) : Prop := t.tmp = s.tmp ∧ t.freeCount = s.freeCount

/-- `t` has in the destination block the samples `P[y][x]`, and every other byte of memory as `s` has it (R56, R61). -/
def BlockWritten (b : Block) (P : Nat → Nat → Sample) (s t : State) : Prop :=
  (∀ y x : Nat, y < b.h → x < b.w → Memory.read t.mem (b.dst + y * b.stride + x) = P y x) ∧
  (∀ a : Nat, ¬ InWriteSet b (a : Int) → Memory.read t.mem a = Memory.read s.mem a)

/-- Nothing is written to memory. -/
def SameMemory (s t : State) : Prop := ∀ a : Nat, Memory.read t.mem a = Memory.read s.mem a

/-! ### The general predictor (R133, R139, R140) -/

/-- The horizontal pass at row `r`, column `x` of a reference plane `ref`, its rows and columns any integers, with the general
8-tap filter for every class (R140). -/
def generalHorizontal (ref : Int → Int → Sample) (c : InterCmd) (r x : Int) : Sample := k8 (fun k => ref r k) x c.fx

/-- `P[y][x]` with the general 8-tap filter on both axes, the horizontal pass first, each pass rounded and saturated
(R139 to R141). -/
def generalPredictor (ref : Int → Int → Sample) (c : InterCmd) (y x : Nat) : Sample :=
  k8 (fun r => generalHorizontal ref c r x) y c.fy

/-! ### The invariant -/

/-- The values `STATUS` takes (R31), field by field. -/
def StatusLegal (s : State) : Prop :=
  (s.busy = true → s.done = false ∧ s.err = false) ∧
  (s.err = true → s.done = true ∧ 1 ≤ s.errCode.toNat ∧ s.errCode.toNat ≤ 7) ∧
  (s.err = false → s.errCode = 0)

/-- What every step keeps. -/
structure Invariant (s : State) : Prop where
  /-- `STATUS` is one of the values of R31. -/
  status_legal : StatusLegal s
  /-- Memory is in its canonical form. -/
  mem_canonical : Memory.wf s.mem = true
  /-- No pair lies outside the 32-bit address space (R50). -/
  mem_inSpace : ∀ p ∈ s.mem, p.1 < 4294967296
  /-- Between steps `TMP` holds no defined row (R33). -/
  tmp_unspecified : s.tmp.rows = []
  /-- The running command is in flight (R256). -/
  busy_inFlight : s.busy = true → s.cmd ∈ s.inFlight
  /-- The error shown is the last one recorded (R233). -/
  err_recorded : s.err = true → s.errRecord.getLast? = some s.errCode

end Sys2Proof.Machine
end

