-- ==== Sys2Proof/Certificates/Slice0/Obligations.lean ====
section
/-! DEFINITION. The statements for the provers. Each docstring names the rule of spec/ it formalises. -/

open Sys2Proof Sys2Proof.Machine

/-! ### The filter kernel and the blend (40_filter_kernel.md, 42_blend.md) -/

/-- R110, R111, R113, R114: the 8-tap primitive is the clamp of the floor of (exact sum of eight products + 64) / 128, tap
`k` on the sample at `p + k - 3` (R133). -/
def Obligations.EightTapKernelValue : Prop :=
  ∀ (line : Int → Sample) (p : Int) (f : Kernel),
    ((k8 line p f).toNat : Int) =
      max 0 (min ((((line (p - 3)).toNat : Int) * f.t0 + ((line (p - 2)).toNat : Int) * f.t1 +
        ((line (p - 1)).toNat : Int) * f.t2 + ((line p).toNat : Int) * f.t3 + ((line (p + 1)).toNat : Int) * f.t4 +
        ((line (p + 2)).toNat : Int) * f.t5 + ((line (p + 3)).toNat : Int) * f.t6 + ((line (p + 4)).toNat : Int) * f.t7 + 64) / 128) 255)

/-- R111: `ROUND(a) = floor((a + 64) / 128)`, the integer nearest to `a/128`, a tie going to the larger integer. -/
def Obligations.RoundToNearestTiesUp : Prop :=
  ∀ a : Int, roundShift a = (a + 64) / 128 ∧ 128 * roundShift a - 64 ≤ a ∧ a < 128 * roundShift a + 64

/-- R115: with the six outer coefficients zero the 8-tap primitive is the 2-tap one on taps 3 and 4. -/
def Obligations.TwoTapFormAgrees : Prop :=
  ∀ (line : Int → Sample) (p : Int) (f : Kernel),
    f.t0 = 0 → f.t1 = 0 → f.t2 = 0 → f.t5 = 0 → f.t6 = 0 → f.t7 = 0 →
    k8 line p f = applyKernel [line p, line (p + 1)] [f.t3, f.t4] ∧
    ((k8 line p f).toNat : Int) =
      max 0 (min ((((line p).toNat : Int) * f.t3 + ((line (p + 1)).toNat : Int) * f.t4 + 64) / 128) 255)

/-- R116: one coefficient 128 at index `i` and zeros elsewhere return `s[i]`. -/
def Obligations.IdentityKernelReturnsSample : Prop :=
  ∀ (s : List Sample) (f : List Int) (i : Nat) (hs : i < s.length) (hf : i < f.length),
    f[i] = 128 → (∀ (j : Nat) (hj : j < f.length), j ≠ i → f[j] = 0) → applyKernel s f = s[i]

/-- R117: the result is 255 from `MAC = 32576` up, 0 up to 63, and `ROUND(MAC)` in between; it never wraps. -/
def Obligations.KernelSaturates : Prop :=
  ∀ (s : List Sample) (f : List Int),
    (32576 ≤ mac s f → applyKernel s f = 255) ∧ (mac s f ≤ 63 → applyKernel s f = 0) ∧
    (63 < mac s f → mac s f < 32576 → ((applyKernel s f).toNat : Int) = roundShift (mac s f))

/-- R118: coefficients that sum to 128 return the common value of constant samples. -/
def Obligations.ConstantInputIsKept : Prop :=
  ∀ (f : List Int) (v : Sample), f.sum = 128 → applyKernel (List.replicate f.length v) f = v

/-- R160: `BLEND(d, n) = (d + n + 1) >> 1`, formed exactly, symmetric, never above 255. -/
def Obligations.BlendIsRoundedAverage : Prop :=
  ∀ d n : Sample, (blend d n).toNat = (d.toNat + n.toNat + 1) / 2 ∧ blend d n = blend n d

/-- R161: `BLEND(x, x) = x`, the result lies between its arguments, and `BLEND` is not associative. -/
def Obligations.BlendLaws : Prop :=
  (∀ x : Sample, blend x x = x) ∧
  (∀ d n : Sample, min d.toNat n.toNat ≤ (blend d n).toNat ∧ (blend d n).toNat ≤ max d.toNat n.toNat) ∧
  blend (blend 0 0) 3 = 2 ∧ blend 0 (blend 0 3) = 1

/-! ### The six commands -/

/-- R139, R140: INTER.PUT completes and stores, whatever the classes of its axes, the block that the general 8-tap filter
gives on both axes, the horizontal pass first and each pass rounded and saturated, over the bytes `ref[r][k]` at
`SRC_ADDR + r*SRC_STRIDE + k` for all integers `r` and `k` (R60). Its frame: no register but `BUSY` and
`DONE` changes, and no byte outside the block. -/
def Obligations.InterPutStoresPredictor : Prop :=
  ∀ (c : InterCmd) (s : State), ChecksPass (.interPut c) → ContractKept (.interPut c) s →
    ∃ t, exec (.interPut c) s = .next t ∧ Completed s t ∧
      BlockWritten (interBlock c)
        (generalPredictor (fun r k => Memory.read s.mem ((c.srcAddr : Int) + r * (c.srcStride : Int) + k).toNat) c) s t

/-- R163, R160: INTER.AVG computes the same `P` as INTER.PUT, over the same bytes `ref[r][k]` at `SRC_ADDR + r*SRC_STRIDE + k`,
and stores `BLEND(d, P)` for the old byte `d`. -/
def Obligations.InterAvgBlendsPredictor : Prop :=
  ∀ (c : InterCmd) (s : State), ChecksPass (.interAvg c) → ContractKept (.interAvg c) s →
    ∃ t, exec (.interAvg c) s = .next t ∧ Completed s t ∧
      BlockWritten (interBlock c)
        (fun y x => blend (Memory.read s.mem (c.dstAddr + y * c.dstStride + x))
          (generalPredictor (fun r k => Memory.read s.mem ((c.srcAddr : Int) + r * (c.srcStride : Int) + k).toNat) c y x)) s t

/-- R136: with both axes COPY an INTER.PUT is a straight block copy, and reads the `W*H` footprint alone. -/
def Obligations.CopyDegeneracyCopiesBlock : Prop :=
  ∀ (c : InterCmd) (s : State), c.fx = ⟨0, 0, 0, 128, 0, 0, 0, 0⟩ → c.fy = ⟨0, 0, 0, 128, 0, 0, 0, 0⟩ →
    ChecksPass (.interPut c) → ContractKept (.interPut c) s →
    (∃ t, exec (.interPut c) s = .next t ∧
      BlockWritten (interBlock c) (fun y x => Memory.read s.mem (c.srcAddr + y * c.srcStride + x)) s t) ∧
    (∀ a : Int, InReadSet (.interPut c) a ↔
      ∃ y x : Nat, y < c.h ∧ x < c.w ∧ a = (c.srcAddr : Int) + (y : Int) * (c.srcStride : Int) + (x : Int))

/-- R173: INTRA.V completes with `P[y][x] = above[x]`, and requires `has_above`: without it the command is stopped with
`ERR_NEIGHBOR` once the size and stride checks pass. -/
def Obligations.IntraVReplicatesAboveRow : Prop :=
  (∀ (c : IntraCmd) (s : State), ChecksPass (.intraV c) → ContractKept (.intraV c) s →
    ∃ t, exec (.intraV c) s = .next t ∧ Completed s t ∧
      BlockWritten (intraBlock c) (fun _ x => Memory.read s.mem (c.aboveAddr + x)) s t) ∧
  (∀ (c : IntraCmd) (s : State), SizeOk (intraBlock c) → c.w ≤ c.dstStride → c.hasAbove = false →
    exec (.intraV c) s = .next (errorEntry .neighbor s))

/-- R174: INTRA.H completes with `P[y][x] = left[y]`, and requires `has_left`. -/
def Obligations.IntraHReplicatesLeftColumn : Prop :=
  (∀ (c : IntraCmd) (s : State), ChecksPass (.intraH c) → ContractKept (.intraH c) s →
    ∃ t, exec (.intraH c) s = .next t ∧ Completed s t ∧
      BlockWritten (intraBlock c) (fun y _ => Memory.read s.mem (c.leftAddr + y)) s t) ∧
  (∀ (c : IntraCmd) (s : State), SizeOk (intraBlock c) → c.w ≤ c.dstStride → c.hasLeft = false →
    exec (.intraH c) s = .next (errorEntry .neighbor s))

/-- R175: INTRA.DC completes and fills the block with one value `v`, the rounded mean of the neighbor sets that exist, 128
where none does. -/
def Obligations.IntraDcFillsWithMean : Prop :=
  ∀ (c : IntraCmd) (s : State), ChecksPass (.intraDc c) → ContractKept (.intraDc c) s →
    ∃ (t : State) (v : Sample), exec (.intraDc c) s = .next t ∧ Completed s t ∧
      BlockWritten (intraBlock c) (fun _ _ => v) s t ∧
      (c.hasAbove = true → c.hasLeft = true → v.toNat =
        (((List.range c.w).map fun x => (Memory.read s.mem (c.aboveAddr + x)).toNat).sum +
          ((List.range c.h).map fun y => (Memory.read s.mem (c.leftAddr + y)).toNat).sum + (c.w + c.h) / 2) / (c.w + c.h)) ∧
      (c.hasAbove = true → c.hasLeft = false → v.toNat =
        (((List.range c.w).map fun x => (Memory.read s.mem (c.aboveAddr + x)).toNat).sum + c.w / 2) / c.w) ∧
      (c.hasAbove = false → c.hasLeft = true → v.toNat =
        (((List.range c.h).map fun y => (Memory.read s.mem (c.leftAddr + y)).toNat).sum + c.h / 2) / c.h) ∧
      (c.hasAbove = false → c.hasLeft = false → v.toNat = 128)

/-- R180: INTRA.TM completes with `P[y][x] = clamp(above[x] + left[y] - corner, 0, 255)`, and requires both neighbor sets. -/
def Obligations.IntraTmAddsGradient : Prop :=
  (∀ (c : IntraCmd) (s : State), ChecksPass (.intraTm c) → ContractKept (.intraTm c) s →
    ∃ (t : State) (P : Nat → Nat → Sample), exec (.intraTm c) s = .next t ∧ Completed s t ∧
      BlockWritten (intraBlock c) P s t ∧
      ∀ y x : Nat, ((P y x).toNat : Int) =
        max 0 (min (((Memory.read s.mem (c.aboveAddr + x)).toNat : Int) + ((Memory.read s.mem (c.leftAddr + y)).toNat : Int) -
          (c.corner : Int)) 255)) ∧
  (∀ (c : IntraCmd) (s : State), SizeOk (intraBlock c) → c.w ≤ c.dstStride → c.hasAbove = false ∨ c.hasLeft = false →
    exec (.intraTm c) s = .next (errorEntry .neighbor s))

/-- R181: INTRA.DC without neighbors fills the block with 128, and with a constant above row alone with that constant.
INTRA.TM with both edges equal to the corner fills it with the corner; with the left column alone so it stores what INTRA.V
stores, and with the above row alone so what INTRA.H stores. -/
def Obligations.IntraLaws : Prop :=
  (∀ (c : IntraCmd) (s : State), ChecksPass (.intraDc c) → ContractKept (.intraDc c) s →
    ∃ t, exec (.intraDc c) s = .next t ∧
      (c.hasAbove = false → c.hasLeft = false → BlockWritten (intraBlock c) (fun _ _ => 128) s t) ∧
      (∀ v : Sample, c.hasAbove = true → c.hasLeft = false → (∀ x, x < c.w → Memory.read s.mem (c.aboveAddr + x) = v) →
        BlockWritten (intraBlock c) (fun _ _ => v) s t)) ∧
  (∀ (c : IntraCmd) (s : State), ChecksPass (.intraTm c) → ContractKept (.intraTm c) s →
    ((∀ y, y < c.h → (Memory.read s.mem (c.leftAddr + y)).toNat = c.corner) →
      (∀ x, x < c.w → (Memory.read s.mem (c.aboveAddr + x)).toNat = c.corner) →
      ∃ t, exec (.intraTm c) s = .next t ∧ BlockWritten (intraBlock c) (fun _ _ => BitVec.ofNat 8 c.corner) s t) ∧
    ((∀ y, y < c.h → (Memory.read s.mem (c.leftAddr + y)).toNat = c.corner) →
      ∃ t u, exec (.intraTm c) s = .next t ∧ exec (.intraV c) s = .next u ∧ SameMemory u t) ∧
    ((∀ x, x < c.w → (Memory.read s.mem (c.aboveAddr + x)).toNat = c.corner) →
      ∃ t u, exec (.intraTm c) s = .next t ∧ exec (.intraH c) s = .next u ∧ SameMemory u t))

/-- R33, R137, R138 (assumption 8): a command that completes and is not two-pass leaves `TMP` as it was; after a two-pass
command its content is a new free value. -/
def Obligations.TmpIsWrittenByTwoPassOnly : Prop :=
  (∀ (i : Instr) (s : State), ChecksPass i → ContractKept i s →
    (∀ c, i = .interPut c ∨ i = .interAvg c → classX c = .copy ∨ classY c = .copy) → ∃ t, exec i s = .next t ∧ TmpKept s t) ∧
  (∀ (i : Instr) (c : InterCmd) (s : State), ChecksPass i → ContractKept i s → i = .interPut c ∨ i = .interAvg c →
    classX c ≠ .copy → classY c ≠ .copy → ∃ t, exec i s = .next t ∧ t.tmp = ⟨s.freeCount, []⟩ ∧ t.freeCount = s.freeCount + 1)

/-- R95: the fields a mode does not use have no effect: `CORNER` in V, H and DC; `HAS_LEFT` and `LEFT_ADDR` in V; `HAS_ABOVE`
and `ABOVE_ADDR` in H; and in DC the address of a set whose flag is 0. -/
def Obligations.UnusedIntraFieldsIgnored : Prop :=
  ∀ (c : IntraCmd) (s : State) (b : Bool) (n a : Nat),
    exec (.intraV { c with corner := n, hasLeft := b, leftAddr := a }) s = exec (.intraV c) s ∧
    exec (.intraH { c with corner := n, hasAbove := b, aboveAddr := a }) s = exec (.intraH c) s ∧
    exec (.intraDc { c with corner := n }) s = exec (.intraDc c) s ∧
    (c.hasAbove = false → exec (.intraDc { c with aboveAddr := a }) s = exec (.intraDc c) s) ∧
    (c.hasLeft = false → exec (.intraDc { c with leftAddr := a }) s = exec (.intraDc c) s)

/-- R8, R62 to R64: what a command stores depends only on the command and on the bytes of its read set. -/
def Obligations.ResultDependsOnReadSetOnly : Prop :=
  ∀ (i : Instr) (s s' t t' : State), ChecksPass i → exec i s = .next t → exec i s' = .next t' →
    (∀ a : Nat, InReadSet i (a : Int) → Memory.read s.mem a = Memory.read s'.mem a) →
    ∀ a : Nat, InWriteSet (blockOf i) (a : Int) → Memory.read t.mem a = Memory.read t'.mem a

/-- R239: two commands of two engines on one memory, with disjoint write sets and neither write set meeting the other's
read set, leave the same memory in either order. -/
def Obligations.DisjointCommandsCommute : Prop :=
  ∀ (i j : Instr) (a b a1 b1 : State) (m : Memory),
    exec i { a with mem := m } = .next a1 → exec j { b with mem := a1.mem } = .next b1 →
    (∀ k, InWriteSet (blockOf i) k → ¬ InWriteSet (blockOf j) k) →
    (∀ k, InWriteSet (blockOf i) k → ¬ InReadSet j k) → (∀ k, InWriteSet (blockOf j) k → ¬ InReadSet i k) →
    ∃ b2 a2, exec j { b with mem := m } = .next b2 ∧ exec i { a with mem := b2.mem } = .next a2 ∧
      ∀ k : Nat, Memory.read a2.mem k = Memory.read b1.mem k

/-! ### Checks and errors (60_exceptions.md) -/

/-- R230: the checks are evaluated in code order and the lowest failing one is recorded; an undecodable latch is
`ERR_ILLEGAL`; a command that passes records no error. -/
def Obligations.LowestFailingCheckIsRecorded : Prop :=
  (∀ (s : State) (r : IllegalReason), decode s.cmd = .error r → execLatch s = .next (errorEntry .illegal s)) ∧
  ∀ (s : State) (i : Instr), decode s.cmd = .ok i →
    (¬ SizeOk (blockOf i) → execLatch s = .next (errorEntry .size s)) ∧
    (SizeOk (blockOf i) → StrideBroken i → execLatch s = .next (errorEntry .stride s)) ∧
    (SizeOk (blockOf i) → ¬ StrideBroken i → StepBroken i → execLatch s = .next (errorEntry .step s)) ∧
    (SizeOk (blockOf i) → ¬ StrideBroken i → ¬ StepBroken i → CoeffBroken i → execLatch s = .next (errorEntry .coeff s)) ∧
    (SizeOk (blockOf i) → ¬ StrideBroken i → ¬ StepBroken i → ¬ CoeffBroken i → NeighborBroken i →
      execLatch s = .next (errorEntry .neighbor s)) ∧
    (SizeOk (blockOf i) → ¬ StrideBroken i → ¬ StepBroken i → ¬ CoeffBroken i → ¬ NeighborBroken i → ¬ AddrOk i →
      execLatch s = .next (errorEntry .addr s)) ∧
    (SizeOk (blockOf i) → ¬ StrideBroken i → ¬ StepBroken i → ¬ CoeffBroken i → ¬ NeighborBroken i → AddrOk i →
      ∀ t, execLatch s = .next t → t.err = s.err ∧ t.errCode = s.errCode)

/-- R231: when a check of the latched command fails with error `e`, or the latch is illegal, `EXEC` is exactly `ERR <- 1`,
`ERRCODE <- e`, `DONE <- 1`, `BUSY <- 0`: `DESC`, `CMD`, `TMP` and every byte of memory are as before, and `STATUS` reads
`0x06 + 16*e` with the code `e`, 1 to 7. -/
def Obligations.ErrorEntryIsExact : Prop :=
  ∀ (s : State) (e : ErrorKind),
    ((∃ r, decode s.cmd = .error r ∧ e = .illegal) ∨ (∃ i, decode s.cmd = .ok i ∧ firstFailingCheck i = some e)) →
    ∃ t, execLatch s = .next t ∧ t.err = true ∧ t.errCode = e.code ∧ t.done = true ∧ t.busy = false ∧
      t.desc = s.desc ∧ t.cmd = s.cmd ∧ TmpKept s t ∧ t.mem = s.mem ∧ t.regions = s.regions ∧ t.agenda = s.agenda ∧
      t.reply = s.reply ∧ t.inFlight = s.inFlight ∧ t.status = BitVec.ofNat 32 (6 + 16 * e.code.toNat) ∧
      1 ≤ e.code.toNat ∧ e.code.toNat ≤ 7

/-- R227: once the earlier checks pass, a command is stopped with `ERR_ADDR` exactly when the lowest address of a set it uses
is below 0 or the highest above 2^32 - 1, with the extents of its own classes (R65). -/
def Obligations.AddressCheckUsesExtremes : Prop :=
  (∀ (c : InterCmd) (s : State), SizeOk (interBlock c) → InterOk c →
    ((exec (.interPut c) s = .next (errorEntry .addr s) ↔
      EndsOutside (interBlock c) ∨
      (c.srcAddr : Int) - (classY c).before * c.srcStride - (classX c).before < 0 ∨
      (c.srcAddr : Int) + ((c.h : Int) - 1 + (classY c).after) * c.srcStride + ((c.w : Int) - 1 + (classX c).after) > 4294967295) ∧
    (exec (.interAvg c) s = .next (errorEntry .addr s) ↔ exec (.interPut c) s = .next (errorEntry .addr s)))) ∧
  (∀ (c : IntraCmd) (s : State), SizeOk (intraBlock c) → c.w ≤ c.dstStride →
    (c.hasAbove = true → (exec (.intraV c) s = .next (errorEntry .addr s) ↔ EndsOutside (intraBlock c) ∨ c.aboveAddr + (c.w - 1) > 4294967295)) ∧
    (c.hasLeft = true → (exec (.intraH c) s = .next (errorEntry .addr s) ↔ EndsOutside (intraBlock c) ∨ c.leftAddr + (c.h - 1) > 4294967295)) ∧
    (exec (.intraDc c) s = .next (errorEntry .addr s) ↔
      EndsOutside (intraBlock c) ∨ (c.hasAbove = true ∧ c.aboveAddr + (c.w - 1) > 4294967295) ∨ (c.hasLeft = true ∧ c.leftAddr + (c.h - 1) > 4294967295)) ∧
    (c.hasAbove = true → c.hasLeft = true → (exec (.intraTm c) s = .next (errorEntry .addr s) ↔
      EndsOutside (intraBlock c) ∨ c.aboveAddr + (c.w - 1) > 4294967295 ∨ c.leftAddr + (c.h - 1) > 4294967295)))

/-- R233: while `ERR` = 1 the error stays: whatever the step, unless it is a `CTRL` write with `CLR` set or the reset input,
`STATUS` is as before, no command starts and no memory is written by the engine. The error record is the model's own
(assumption 7). -/
def Obligations.HaltedUntilClearOrReset : Prop :=
  ∀ s t : State, Invariant s → s.err = true → step s = .next t →
    (∀ v rest, s.agenda = .regWrite 16 v :: rest → field v 1 1 = 0) → (∀ rest, s.agenda ≠ .reset :: rest) →
    t.status = s.status ∧ t.cmd = s.cmd ∧ t.errRecord = s.errRecord ∧
    ((∀ a v rest, s.agenda ≠ .memWrite a v :: rest) → t.mem = s.mem)

/-- R233 (the model's own record, assumption 7): no step loses an error that was recorded, and an error entry adds its
code. -/
def Obligations.ErrorRecordIsNeverCleared : Prop :=
  (∀ s t : State, step s = .next t → s.errRecord <+: t.errRecord) ∧
  ∀ (e : ErrorKind) (s : State), (errorEntry e s).errRecord = s.errRecord ++ [e.code]

/-- R53, R72: a command that passes its checks is a fault of the launch when a byte of its footprint is not `Valid`, and is
refused when its read set meets its write set, INTER.AVG's own destination apart. The order of the two is the model's
(assumption 10). -/
def Obligations.BrokenContractStops : Prop :=
  ∀ (i : Instr) (s : State), ChecksPass i →
    ((∃ a, (InSource i a ∨ InWriteSet (blockOf i) a) ∧ s.valid a = false) → exec i s = .fault .launchMemory) ∧
    ((∀ a, InSource i a ∨ InWriteSet (blockOf i) a → s.valid a = true) →
      (∃ a, InSource i a ∧ InWriteSet (blockOf i) a) → exec i s = .refused .overlap)

/-! ### Encoding (30_encoding.md) -/

/-- R103: `decode(encode(c)) = c` for every record whose fields are in the ranges of R88. -/
def Obligations.DecodeOfEncode : Prop :=
  ∀ i : Instr, i.wellFormed = true → decode (encode i) = .ok i

/-- R103: `encode(decode(d)) = d` for every descriptor that decodes, and what decodes is in the ranges of R88; so `decode` is
injective on the descriptors it accepts (R89). -/
def Obligations.EncodeOfDecode : Prop :=
  (∀ (d : Descriptor) (i : Instr), decode d = .ok i → i.wellFormed = true ∧ encode i = d) ∧
  ∀ (d e : Descriptor) (i : Instr), decode d = .ok i → decode e = .ok i → d = e

/-- R93: a descriptor is illegal exactly in the cases (a) to (f), and an illegal latch ends with `ERR_ILLEGAL` and writes no
memory. -/
def Obligations.IllegalDescriptors : Prop :=
  (∀ d : Descriptor, (∃ r, decode d = .error r) ↔
    (field d[0] 3 0 ≠ 1 ∧ field d[0] 3 0 ≠ 2) ∨
    (field d[0] 31 24 ≠ 0 ∨ field d[0] 15 9 ≠ 0) ∨
    (field d[0] 3 0 = 1 ∧ (field d[0] 5 4 ≠ 0 ∨ field d[0] 7 7 ≠ 0 ∨ field d[0] 8 8 ≠ 0 ∨ field d[0] 23 16 ≠ 0)) ∨
    (field d[0] 3 0 = 2 ∧ field d[0] 6 6 ≠ 0) ∨
    d[7] ≠ 0 ∨
    (field d[0] 3 0 = 2 ∧ (d[6] ≠ 0 ∨ d[8] ≠ 0 ∨ d[9] ≠ 0 ∨ d[10] ≠ 0 ∨ d[11] ≠ 0 ∨ d[12] ≠ 0 ∨ d[13] ≠ 0 ∨ d[14] ≠ 0 ∨ d[15] ≠ 0))) ∧
  ∀ (s : State) (r : IllegalReason), decode s.cmd = .error r →
    ∃ t, execLatch s = .next t ∧ t.err = true ∧ t.errCode = 1 ∧ t.mem = s.mem

/-- R87, R91 and the vectors S9, V23, V46, V48: words written out from the spec decode to the commands they stand for. -/
def Obligations.WrittenOutWordsDecode : Prop :=
  decode #v[0x008001A2, 0x00040004, 0x00003000, 0x00000010, 0x00002FF0, 0x00002F00, 0, 0, 0, 0, 0, 0, 0, 0, 0, 0] =
    .ok (.intraDc ⟨true, true, 128, 4, 4, 0x3000, 16, 0x2FF0, 0x2F00⟩) ∧
  decode #v[0x00000001, 0x00010004, 0x00002000, 0x00000004, 0x00001000, 0x00000010, 0x00100010, 0, 0x0006FFFF, 0x004EFFED,
      0xFFED004E, 0xFFFF0006, 0, 0x00800000, 0, 0] =
    .ok (.interPut ⟨4, 1, 0x2000, 4, 0x1000, 16, 16, 16, ⟨-1, 6, -19, 78, 78, -19, 6, -1⟩, ⟨0, 0, 0, 128, 0, 0, 0, 0⟩⟩) ∧
  decode #v[0x00000041, 0x00010002, 0x00002000, 0x00000008, 0x00001000, 0x00000008, 0x00100010, 0, 0, 0x00800000, 0, 0, 0,
      0x00800000, 0, 0] =
    .ok (.interAvg ⟨2, 1, 0x2000, 8, 0x1000, 8, 16, 16, ⟨0, 0, 0, 128, 0, 0, 0, 0⟩, ⟨0, 0, 0, 128, 0, 0, 0, 0⟩⟩) ∧
  decode #v[0x00000082, 0x00020004, 0x00003000, 8, 0x100, 0x200, 0, 0, 0, 0, 0, 0, 0, 0, 0, 0] =
    .ok (.intraV ⟨true, false, 0, 4, 2, 0x3000, 8, 0x100, 0x200⟩) ∧
  decode #v[0x00FF0112, 0x00020004, 0x00003010, 8, 0x100, 0x200, 0, 0, 0, 0, 0, 0, 0, 0, 0, 0] =
    .ok (.intraH ⟨false, true, 255, 4, 2, 0x3010, 8, 0x100, 0x200⟩) ∧
  decode #v[0x001401B2, 0x00040004, 0x00003000, 4, 0x100, 0x200, 0, 0, 0, 0, 0, 0, 0, 0, 0, 0] =
    .ok (.intraTm ⟨true, true, 20, 4, 4, 0x3000, 4, 0x100, 0x200⟩)

/-- R101: each pseudo-instruction assembles to the INTER.PUT or INTER.AVG of the same operands, with steps of 16 and the
identity kernel where it names none, whenever the fields can hold the operands. -/
def Obligations.PseudoInstructionsExpand : Prop :=
  ∀ (dst ds src ss w h : Nat) (f : Kernel),
    (InterCmd.mk w h dst ds src ss 16 16 f Kernel.identity).wellFormed = true →
    assemble ⟨.copy, [(.dst, .num dst), (.ds, .num ds), (.src, .num src), (.ss, .num ss), (.w, .num w), (.h, .num h)]⟩ =
      some (.interPut ⟨w, h, dst, ds, src, ss, 16, 16, Kernel.identity, Kernel.identity⟩) ∧
    assemble ⟨.avg, [(.dst, .num dst), (.ds, .num ds), (.src, .num src), (.ss, .num ss), (.w, .num w), (.h, .num h)]⟩ =
      some (.interAvg ⟨w, h, dst, ds, src, ss, 16, 16, Kernel.identity, Kernel.identity⟩) ∧
    assemble ⟨.horizPut, [(.dst, .num dst), (.ds, .num ds), (.src, .num src), (.ss, .num ss), (.w, .num w), (.h, .num h), (.fx, .kernel f)]⟩ =
      some (.interPut ⟨w, h, dst, ds, src, ss, 16, 16, f, Kernel.identity⟩) ∧
    assemble ⟨.horizAvg, [(.dst, .num dst), (.ds, .num ds), (.src, .num src), (.ss, .num ss), (.w, .num w), (.h, .num h), (.fx, .kernel f)]⟩ =
      some (.interAvg ⟨w, h, dst, ds, src, ss, 16, 16, f, Kernel.identity⟩) ∧
    assemble ⟨.vertPut, [(.dst, .num dst), (.ds, .num ds), (.src, .num src), (.ss, .num ss), (.w, .num w), (.h, .num h), (.fy, .kernel f)]⟩ =
      some (.interPut ⟨w, h, dst, ds, src, ss, 16, 16, Kernel.identity, f⟩) ∧
    assemble ⟨.vertAvg, [(.dst, .num dst), (.ds, .num ds), (.src, .num src), (.ss, .num ss), (.w, .num w), (.h, .num h), (.fy, .kernel f)]⟩ =
      some (.interAvg ⟨w, h, dst, ds, src, ss, 16, 16, Kernel.identity, f⟩)

/-! ### Registers and the life cycle (10_state.md, 45_control.md) -/

/-- R22: a `DESC` word reads as what the host last wrote to it, whatever `STATUS` says; a write to one changes no other and has
no side effect on `STATUS`, `CMD`, `TMP` or memory; and no step but a host write to `DESC` or reset changes any. -/
def Obligations.DescHoldsLastHostWrite : Prop :=
  (∀ (s : State) (i j : Nat) (v : Word), i < 16 → j < 16 →
    regRead j (regWrite i v s) = if j = i then v else regRead j s) ∧
  (∀ (s : State) (i : Nat) (v : Word), i < 16 →
    (regWrite i v s).status = s.status ∧ (regWrite i v s).cmd = s.cmd ∧ (regWrite i v s).tmp = s.tmp ∧
    (regWrite i v s).mem = s.mem) ∧
  ∀ s t : State, step s = .next t → (∀ i v rest, s.agenda = .regWrite i v :: rest → 16 ≤ i) →
    (∀ rest, s.agenda ≠ .reset :: rest) → t.desc = s.desc

/-- R201: `CTRL` and the indices from 18 up read as 0, `STATUS` is `BUSY | DONE << 1 | ERR << 2 | ERRCODE << 4`, and a read
changes no register and no memory. -/
def Obligations.RegisterReadsHaveNoSideEffect : Prop :=
  ∀ (s : State) (i : Nat),
    (∀ h : i < 16, regRead i s = s.desc[i]) ∧ (i = 16 → regRead i s = 0) ∧
    (i = 17 → (regRead i s).toNat = s.busy.toNat + 2 * s.done.toNat + 4 * s.err.toNat + 16 * s.errCode.toNat) ∧
    (18 ≤ i → regRead i s = 0) ∧
    step { s with agenda := .regRead i :: s.agenda } = .next (hostRead i s) ∧ (hostRead i s).reply = some (regRead i s) ∧
    (hostRead i s).desc = s.desc ∧ (hostRead i s).status = s.status ∧ (hostRead i s).cmd = s.cmd ∧
    (hostRead i s).tmp = s.tmp ∧ (hostRead i s).mem = s.mem

/-- R202, R209: a `START` (a `CTRL` write with bit 0 alone) is accepted exactly when `BUSY` = 0 and `ERR` = 0; then `CMD` takes
all of `DESC`, `BUSY` is 1 and `DONE` 0; otherwise the state is exactly what it was. -/
def Obligations.StartLatchesDescriptorWhenIdle : Prop :=
  ∀ (s : State) (v : Word), field v 1 1 = 0 → field v 0 0 = 1 →
    (s.busy = false → s.err = false →
      (regWrite 16 v s).cmd = s.desc ∧ (regWrite 16 v s).busy = true ∧ (regWrite 16 v s).done = false ∧
      (regWrite 16 v s).err = s.err ∧ (regWrite 16 v s).errCode = s.errCode ∧ (regWrite 16 v s).desc = s.desc ∧
      (regWrite 16 v s).mem = s.mem ∧ (regWrite 16 v s).tmp = s.tmp) ∧
    (s.busy = true ∨ s.err = true → regWrite 16 v s = s)

/-- R203: a `CLR` (a `CTRL` write with bit 1 alone) sets `STATUS` to 0 when `BUSY` = 0 and does nothing otherwise; it never
touches `DESC`, `CMD` or memory. -/
def Obligations.ClearZeroesStatusWhenIdle : Prop :=
  ∀ (s : State) (v : Word), field v 1 1 = 1 → field v 0 0 = 0 →
    (s.busy = false → (regWrite 16 v s).status = 0) ∧ (s.busy = true → regWrite 16 v s = s) ∧
    (regWrite 16 v s).desc = s.desc ∧ (regWrite 16 v s).cmd = s.cmd ∧ (regWrite 16 v s).mem = s.mem

/-- R204: with both bits set the write clears and then starts: from any state that is not busy it latches `DESC`, error or
no error; while `BUSY` = 1 both halves are ignored. -/
def Obligations.ClearThenStartInOneWrite : Prop :=
  ∀ (s : State) (v : Word), field v 1 1 = 1 → field v 0 0 = 1 →
    (s.busy = false → (regWrite 16 v s).cmd = s.desc ∧ (regWrite 16 v s).status = 1) ∧
    (s.busy = true → regWrite 16 v s = s)

/-- R200: a write to `STATUS` or to an index from 18 up does nothing, and bits 31:2 of a `CTRL` write are ignored. -/
def Obligations.OtherRegisterWritesIgnored : Prop :=
  (∀ (s : State) (i : Nat) (v : Word), 17 ≤ i → regWrite i v s = s) ∧
  (∀ (s : State) (v w : Word), field v 1 0 = field w 1 0 → regWrite 16 v s = regWrite 16 w s)

/-- R208, R32: a `DESC` write while a command runs changes `DESC` at once and has no effect on the command: writing first and then running gives what running
first and then writing gives. -/
def Obligations.DescWriteDoesNotReachRunningCommand : Prop :=
  ∀ (s t : State) (i : Nat) (v : Word), i < 16 → s.busy = true → execLatch s = .next t →
    regRead i (regWrite i v s) = v ∧ execLatch (regWrite i v s) = .next (regWrite i v t)

/-- The engine's turn runs the command decoded from the latch: R205 says that `EXEC` is enabled iff `BUSY` = 1 and what it
does. WHICH steps are the engine's turn is the model's choice, log entry 11 (DESIGN CHOICE): a step with an empty agenda, one
with the engine's turn scheduled, and one in which a `wait` polls `DONE` = 0, `EXEC` following in the same step. On such a
step the state is that of `exec i` when the latch decodes to `i`; an illegal latch ends in `ERR_ILLEGAL`; an idle engine does
nothing. -/
def Obligations.StepRunsLatchedCommand : Prop :=
  (∀ (s : State) (i : Instr), s.busy = true → decode s.cmd = .ok i →
    (s.agenda = [] → step s = exec i s) ∧
    (∀ rest, s.agenda = .engine :: rest → step s = exec i { s with agenda := rest }) ∧
    (∀ rest, s.agenda = .wait :: rest → s.done = false → step s = exec i { s with reply := some s.status })) ∧
  (∀ (s : State) (r : IllegalReason), s.busy = true → s.agenda = [] → decode s.cmd = .error r →
    step s = .next (errorEntry .illegal s)) ∧
  (∀ s : State, s.busy = false → s.agenda = [] → step s = .next s)

/-- R202, R205 and the placing of an instruction (assumption 9): a well-formed command placed in the latch is what the very
next step runs. -/
def Obligations.PlacedCommandRunsNext : Prop :=
  ∀ (i : Instr) (s : State), i.wellFormed = true →
    step (latchCommand (encode i) s) = exec i (latchCommand (encode i) s)

/-- R207: a successful `EXEC` from a state of the invariant leaves `STATUS = 0x00000002` and `DESC` unchanged. -/
def Obligations.CompletionStatusIsTwo : Prop :=
  ∀ (s : State) (i : Instr), Invariant s → s.busy = true → decode s.cmd = .ok i → ChecksPass i → ContractKept i s →
    ∃ t, execLatch s = .next t ∧ t.status = 2 ∧ t.err = false ∧ t.errCode = 0 ∧ t.desc = s.desc

/-- R211, R210: from an idle engine with no error the host's script for one command (sixteen writes, `START`, and the `wait`
loop) ends. The command has run on the memory the host started it with, `DESC` holds its words, and the host has read a
`STATUS` with `DONE` = 1. That this takes 19 steps (one action a step, the engine's turn inside a poll) is the model's choice, log
entry 11 (DESIGN CHOICE); that nothing is in flight afterwards is about the model's own `inFlight`, log entry 12 (DEDUCED). -/
def Obligations.HostProtocolRunsOneCommand : Prop :=
  ∀ (i : Instr) (s : State) (rest : List Action), i.wellFormed = true → s.busy = false → s.err = false → s.errCode = 0 →
    ChecksPass i → ContractKept i s → s.agenda = commandScript i ++ rest →
    ∃ t u, Host.Core.run Sys2Proof.core 19 s = .next t ∧ exec i s = .next u ∧
      t.mem = u.mem ∧ t.desc = encode i ∧ t.agenda = rest ∧ t.inFlight = [] ∧ t.reply = some 2 ∧ t.status = 2

/-- R131, R132: the class of an axis is found from its step and kernel, and fixes how far it reads. -/
def Obligations.AxisClassesAndExtents : Prop :=
  ∀ (step : Nat) (f : Kernel),
    (classOf step f = .copy ↔ step = 16 ∧ f = ⟨0, 0, 0, 128, 0, 0, 0, 0⟩) ∧
    (classOf step f = .bilinear ↔ ¬ (step = 16 ∧ f = ⟨0, 0, 0, 128, 0, 0, 0, 0⟩) ∧
      f.t0 = 0 ∧ f.t1 = 0 ∧ f.t2 = 0 ∧ f.t5 = 0 ∧ f.t6 = 0 ∧ f.t7 = 0) ∧
    (classOf step f = .full ↔ ¬ (step = 16 ∧ f = ⟨0, 0, 0, 128, 0, 0, 0, 0⟩) ∧
      ¬ (f.t0 = 0 ∧ f.t1 = 0 ∧ f.t2 = 0 ∧ f.t5 = 0 ∧ f.t6 = 0 ∧ f.t7 = 0)) ∧
    (AxisClass.copy.before = 0 ∧ AxisClass.copy.after = 0 ∧ AxisClass.bilinear.before = 0 ∧ AxisClass.bilinear.after = 1 ∧
      AxisClass.full.before = 3 ∧ AxisClass.full.after = 4)

/-- R190: a specialized variant is selected exactly when both sides are in {4, 8, 16, 32, 64}, and it is named by the width;
the key is that size with the two classes and the blend bit, or with the intra mode. -/
def Obligations.DispatcherSelectsBySize : Prop :=
  (∀ c : InterCmd, dispatchKey (.interPut c) = .inter (sizeVariant c.w c.h) (classX c) (classY c) false ∧
    dispatchKey (.interAvg c) = .inter (sizeVariant c.w c.h) (classX c) (classY c) true) ∧
  (∀ c : IntraCmd, dispatchKey (.intraV c) = .intra (sizeVariant c.w c.h) .v ∧
    dispatchKey (.intraH c) = .intra (sizeVariant c.w c.h) .h ∧ dispatchKey (.intraDc c) = .intra (sizeVariant c.w c.h) .dc ∧
    dispatchKey (.intraTm c) = .intra (sizeVariant c.w c.h) .tm) ∧
  ∀ w h : Nat,
    (sizeVariant w h = .generic ↔ ¬ ((w = 4 ∨ w = 8 ∨ w = 16 ∨ w = 32 ∨ w = 64) ∧ (h = 4 ∨ h = 8 ∨ h = 16 ∨ h = 32 ∨ h = 64))) ∧
    (sizeVariant w h = .width4 → w = 4) ∧ (sizeVariant w h = .width8 → w = 8) ∧ (sizeVariant w h = .width16 → w = 16) ∧
    (sizeVariant w h = .width32 → w = 32) ∧ (sizeVariant w h = .width64 → w = 64)

/-! ### Reset, the race rule, and what every step keeps -/

/-- R251, R35: right after reset every register reads as 0, the engine is idle and stays so while the host does nothing, and a
`START` is accepted at once. That the host does nothing is the model's empty agenda (assumption 19). -/
def Obligations.ResetStateReadsZero : Prop :=
  (∀ i : Nat, regRead i State.reset = 0) ∧ State.reset.busy = false ∧ step State.reset = .next State.reset ∧
  (∀ v : Word, field v 0 0 = 1 → (regWrite 16 v State.reset).busy = true)

/-- R250, R252: in any state the reset input (the agenda's action `reset`) completes and zeroes `DESC` and `STATUS`. While
`BUSY` = 0 it leaves every byte of memory as it was. While `BUSY` = 1 it cuts the command off, whatever the latch holds, an
illegal descriptor, a command that a check will stop, and one that breaks its contract (assumption 15) among them, and no byte
changes outside the write set of a command that passes its checks (one stopped by a check has none, assumption 13). -/
def Obligations.ResetInputClearsRegisters : Prop :=
  ∀ (s : State) (rest : List Action), s.agenda = .reset :: rest →
    ∃ t, step s = .next t ∧ t.desc = Vector.replicate 16 0 ∧ t.status = 0 ∧
      (s.busy = false → t.mem = s.mem) ∧
      ∀ a : Nat, (∀ i, decode s.cmd = .ok i → ChecksPass i → ¬ InWriteSet (blockOf i) (a : Int)) →
        Memory.read t.mem a = Memory.read s.mem a

/-- R70, R256, R257: while a command runs, another agent's write to a valid byte of its read set or write set, or read of a
valid byte of its write set, is a race. Every other access to a valid byte goes ahead: a write to a byte that no command in
flight reads or writes, and a read of a byte that no command in flight writes, a byte that commands only read among them (R70).
The window is the model's `inFlight` (assumption 12); a command that a check stops has no read or write set (assumption 13). -/
def Obligations.ConflictingAccessIsRace : Prop :=
  (∀ (s : State) (i : Instr) (a : Nat) (v : Byte) (rest : List Action), Invariant s → s.busy = true → decode s.cmd = .ok i →
    ChecksPass i → s.valid a = true →
    (InReadSet i (a : Int) ∨ InWriteSet (blockOf i) (a : Int) → s.agenda = .memWrite a v :: rest → step s = .fault .race) ∧
    (InWriteSet (blockOf i) (a : Int) → s.agenda = .memRead a :: rest → step s = .fault .race)) ∧
  (∀ (s : State) (a : Nat) (v : Byte) (rest : List Action), s.valid a = true →
    (∀ d ∈ s.inFlight, ∀ i, decode d = .ok i → ChecksPass i → ¬ InReadSet i (a : Int) ∧ ¬ InWriteSet (blockOf i) (a : Int)) →
    s.agenda = .memWrite a v :: rest → ∃ t, step s = .next t ∧ Memory.read t.mem a = v ∧
      ∀ b : Nat, b ≠ a → Memory.read t.mem b = Memory.read s.mem b) ∧
  (∀ (s : State) (a : Nat) (rest : List Action), s.valid a = true →
    (∀ d ∈ s.inFlight, ∀ i, decode d = .ok i → ChecksPass i → ¬ InWriteSet (blockOf i) (a : Int)) →
    s.agenda = .memRead a :: rest → ∃ t, step s = .next t ∧ t.reply = some ((Memory.read s.mem a).setWidth 32) ∧ t.mem = s.mem)

/-- R258, R68: a command stays in flight through every step but the reset input and a `STATUS` read (by the host or its `wait`)
that returns `DONE` = 1 and `ERR` = 0; that read ends the window and changes no memory; another agent's read of a byte of the
write set of a command in flight is a race, whether it still runs or has completed. The window is the model's `inFlight`
(assumption 12). -/
def Obligations.UnobservedResultIsRace : Prop :=
  (∀ s t : State, step s = .next t → (∀ rest, s.agenda ≠ .reset :: rest) →
    (∀ rest, s.agenda = .regRead 17 :: rest ∨ s.agenda = .wait :: rest → s.done = false ∨ s.err = true) →
    ∀ d ∈ s.inFlight, d ∈ t.inFlight) ∧
  (∀ (s : State) (rest : List Action), s.agenda = .regRead 17 :: rest ∨ s.agenda = .wait :: rest → s.done = true → s.err = false →
    ∃ t, step s = .next t ∧ t.inFlight = [] ∧ t.reply = some s.status ∧ t.mem = s.mem) ∧
  (∀ (s : State) (d : Descriptor) (i : Instr) (a : Nat) (rest : List Action), d ∈ s.inFlight → decode d = .ok i → ChecksPass i →
    s.valid a = true → InWriteSet (blockOf i) (a : Int) → s.agenda = .memRead a :: rest → step s = .fault .race)

/-- The invariant holds right after reset; its clauses on `inFlight`, `errRecord` and `tmp` are about the model's own fields
(assumptions 2, 7, 12, 19). -/
def Obligations.ResetMeetsInvariant : Prop := Invariant State.reset

/-- Every step keeps the invariant: `STATUS` stays one of the values of R31, memory stays in its canonical form inside the
address space, `TMP` holds no defined row between commands (R33), the running command is in flight, and the error shown is
the last one recorded. The clauses on `inFlight`, `errRecord` and `tmp` are about the model's own fields (assumptions 2, 7, 12). -/
def Obligations.StepKeepsInvariant : Prop := ∀ s t : State, Invariant s → step s = .next t → Invariant t

/-- R31: in every state of the invariant `STATUS` is 0, 1, 2 or `0x06 + 16*e` for some `e` from 1 to 7. -/
def Obligations.StatusTakesListedValues : Prop :=
  ∀ s : State, Invariant s → s.status = 0 ∨ s.status = 1 ∨ s.status = 2 ∨
    ∃ e : Nat, 1 ≤ e ∧ e ≤ 7 ∧ s.status = BitVec.ofNat 32 (6 + 16 * e)
end

