-- ==== Sys2Proof/Laws/Memory.lean ====
section
/-! SUPPORT. The laws of memory: a read after a write, and the canonical form. -/

namespace Sys2Proof.Machine

@[simp] theorem read_nil (a : Nat) : Memory.read [] a = Memory.unlisted := rfl

theorem read_cons (k : Nat) (v : Byte) (m : Memory) (a : Nat) :
    Memory.read ((k, v) :: m) a = if k = a then v else Memory.read m a := rfl

theorem read_of_not_listed (m : Memory) (a : Nat) (h : ∀ p ∈ m, p.1 ≠ a) : Memory.read m a = Memory.unlisted := by
  induction m with
  | nil => rfl
  | cons p m ih =>
    obtain ⟨k, v⟩ := p
    rw [read_cons, if_neg (h (k, v) (by simp)), ih fun q hq => h q (by simp [hq])]

theorem read_erase (m : Memory) (a b : Nat) :
    Memory.read (Memory.erase m a) b = if a = b then Memory.unlisted else Memory.read m b := by
  unfold Memory.erase
  induction m with
  | nil => simp
  | cons p m ih =>
    obtain ⟨k, v⟩ := p
    by_cases hk : k = a
    · subst hk
      by_cases hb : k = b
      · simpa [hb] using ih
      · simpa [read_cons, hb] using ih
    · rw [List.filter_cons_of_pos (by simpa using hk), read_cons, ih, read_cons]
      by_cases hb : a = b
      · simp [← hb, hk]
      · simp [hb]

theorem not_listed_erase (m : Memory) (a : Nat) : ∀ p ∈ Memory.erase m a, p.1 ≠ a := by
  intro p hp
  simpa [Memory.erase] using (List.mem_filter.mp hp).2

theorem read_insert (m : Memory) (a : Nat) (v : Byte) (h : ∀ p ∈ m, p.1 ≠ a) (b : Nat) :
    Memory.read (Memory.insert m a v) b = if a = b then v else Memory.read m b := by
  induction m with
  | nil => simp [Memory.insert, read_cons]
  | cons p m ih =>
    obtain ⟨k, w⟩ := p
    have hk : k ≠ a := h (k, w) (by simp)
    have ih := ih fun q hq => h q (by simp [hq])
    unfold Memory.insert
    split
    · simp [read_cons]
    · rw [read_cons, ih, read_cons]
      by_cases hb : k = b
      · subst hb
        simp [Ne.symm hk]
      · simp [hb]

/-- A byte reads as the last value written to it, and every other byte as before (R57). -/
theorem read_write (m : Memory) (a : Nat) (v : Byte) (b : Nat) :
    Memory.read (Memory.write m a v) b = if a = b then v else Memory.read m b := by
  unfold Memory.write
  split
  · rename_i hv
    rw [read_erase, hv]
  · rw [read_insert _ _ _ (not_listed_erase m a), read_erase]
    split <;> rfl

theorem read_write_self (m : Memory) (a : Nat) (v : Byte) : Memory.read (Memory.write m a v) a = v := by
  simp [read_write]

theorem read_write_of_ne (m : Memory) {a b : Nat} (v : Byte) (h : a ≠ b) :
    Memory.read (Memory.write m a v) b = Memory.read m b := by
  simp [read_write, h]

@[simp] theorem writeAll_nil (m : Memory) : Memory.writeAll m [] = m := rfl

@[simp] theorem writeAll_cons (m : Memory) (p : Host.Cell) (l : List Host.Cell) :
    Memory.writeAll m (p :: l) = Memory.writeAll (Memory.write m p.1 p.2) l := rfl

/-- A byte that no cell names reads as before. -/
theorem read_writeAll_of_not_mem (l : List Host.Cell) (m : Memory) (a : Nat) (h : ∀ p ∈ l, p.1 ≠ a) :
    Memory.read (Memory.writeAll m l) a = Memory.read m a := by
  induction l generalizing m with
  | nil => rfl
  | cons p l ih =>
    rw [writeAll_cons, ih _ fun q hq => h q (by simp [hq]), read_write_of_ne _ _ (h p (by simp))]

/-- Where all cells of one address hold one value, that address reads as it. -/
theorem read_writeAll_of_mem (l : List Host.Cell) (m : Memory) (a : Nat) (v : Byte)
    (hp : (a, v) ∈ l) (hv : ∀ q ∈ l, q.1 = a → q.2 = v) : Memory.read (Memory.writeAll m l) a = v := by
  induction l generalizing m with
  | nil => simp at hp
  | cons q l ih =>
    rw [writeAll_cons]
    by_cases hl : (a, v) ∈ l
    · exact ih _ hl fun r hr => hv r (by simp [hr])
    · have hq : q = (a, v) := by simpa [hl, eq_comm] using hp
      rw [read_writeAll_of_not_mem, hq, read_write_self]
      intro r hr he
      have := hv r (by simp [hr]) he
      exact hl (by rw [← he, ← this]; exact hr)

/-! ### The canonical form -/

/-- The canonical form as two plain facts. -/
theorem wf_iff (m : Memory) :
    Memory.wf m = true ↔ (m.Pairwise fun p q => p.1 < q.1) ∧ ∀ p ∈ m, p.2 ≠ Memory.unlisted := by
  induction m with
  | nil => simp [Memory.wf]
  | cons p m ih =>
    cases m with
    | nil => simp [Memory.wf]
    | cons q m =>
      rw [Memory.wf, Bool.and_eq_true, Bool.and_eq_true, ih, decide_eq_true_iff, decide_eq_true_iff]
      constructor
      · rintro ⟨⟨hp, hlt⟩, hs, hv⟩
        refine ⟨List.pairwise_cons.mpr ⟨?_, hs⟩, ?_⟩
        · intro r hr
          rcases List.mem_cons.mp hr with rfl | hr
          · exact hlt
          · exact lt_trans hlt ((List.pairwise_cons.mp hs).1 r hr)
        · intro r hr
          rcases List.mem_cons.mp hr with rfl | hr
          · exact hp
          · exact hv r hr
      · rintro ⟨hs, hv⟩
        have hs := List.pairwise_cons.mp hs
        exact ⟨⟨hv p (by simp), hs.1 q (by simp)⟩, hs.2, fun r hr => hv r (by simp [hr])⟩

theorem mem_insert (m : Memory) (a : Nat) (v : Byte) (p : Host.Cell) :
    p ∈ Memory.insert m a v ↔ p = (a, v) ∨ p ∈ m := by
  induction m with
  | nil => simp [Memory.insert]
  | cons q m ih =>
    obtain ⟨k, w⟩ := q
    unfold Memory.insert
    split
    · simp
    · rw [List.mem_cons, ih, List.mem_cons]
      tauto

theorem pairwise_insert (m : Memory) (a : Nat) (v : Byte) (h : ∀ p ∈ m, p.1 ≠ a)
    (hs : m.Pairwise fun p q => p.1 < q.1) : (Memory.insert m a v).Pairwise fun p q => p.1 < q.1 := by
  induction m with
  | nil => simp [Memory.insert]
  | cons q m ih =>
    obtain ⟨k, w⟩ := q
    have hk : k ≠ a := h (k, w) (by simp)
    have hc := List.pairwise_cons.mp hs
    unfold Memory.insert
    split
    · rename_i hlt
      refine List.pairwise_cons.mpr ⟨?_, hs⟩
      intro r hr
      rcases List.mem_cons.mp hr with rfl | hr
      · exact hlt
      · exact lt_trans hlt (hc.1 r hr)
    · rename_i hlt
      refine List.pairwise_cons.mpr ⟨?_, ih (fun r hr => h r (by simp [hr])) hc.2⟩
      intro r hr
      rcases (mem_insert m a v r).mp hr with rfl | hr
      · show k < a
        omega
      · exact hc.1 r hr

/-- A write keeps the canonical form. -/
theorem wf_write (m : Memory) (a : Nat) (v : Byte) (h : Memory.wf m = true) : Memory.wf (Memory.write m a v) = true := by
  rw [wf_iff] at h ⊢
  have hs : (Memory.erase m a).Pairwise fun p q => p.1 < q.1 := h.1.filter _
  have hv : ∀ p ∈ Memory.erase m a, p.2 ≠ Memory.unlisted := fun p hp => h.2 p (List.mem_filter.mp hp).1
  unfold Memory.write
  split
  · exact ⟨hs, hv⟩
  · rename_i hne
    refine ⟨pairwise_insert _ _ _ (not_listed_erase m a) hs, ?_⟩
    intro p hp
    rcases (mem_insert _ _ _ p).mp hp with rfl | hp
    · exact hne
    · exact hv p hp

/-- Every pair of a written memory is the pair written or was there before. -/
theorem mem_write (m : Memory) (a : Nat) (v : Byte) (p : Host.Cell) (h : p ∈ Memory.write m a v) :
    p.1 = a ∨ p ∈ m := by
  unfold Memory.write at h
  split at h
  · exact .inr (List.mem_filter.mp h).1
  · rcases (mem_insert _ _ _ p).mp h with rfl | h
    · exact .inl rfl
    · exact .inr (List.mem_filter.mp h).1

theorem wf_writeAll (l : List Host.Cell) (m : Memory) (h : Memory.wf m = true) :
    Memory.wf (Memory.writeAll m l) = true := by
  induction l generalizing m with
  | nil => exact h
  | cons p l ih => exact ih _ (wf_write m p.1 p.2 h)

theorem mem_writeAll (l : List Host.Cell) (m : Memory) (p : Host.Cell) (h : p ∈ Memory.writeAll m l) :
    (∃ q ∈ l, p.1 = q.1) ∨ p ∈ m := by
  induction l generalizing m with
  | nil => exact .inr h
  | cons q l ih =>
    rcases ih _ h with ⟨r, hr, he⟩ | h
    · exact .inl ⟨r, by simp [hr], he⟩
    · rcases mem_write _ _ _ _ h with he | h
      · exact .inl ⟨q, by simp, he⟩
      · exact .inr h

/-- Equal reads make equal canonical memories. -/
theorem wf_ext (m n : Memory) (hm : Memory.wf m = true) (hn : Memory.wf n = true)
    (h : ∀ a, Memory.read m a = Memory.read n a) : m = n := by
  rw [wf_iff] at hm hn
  induction m generalizing n with
  | nil =>
    cases n with
    | nil => rfl
    | cons q n =>
      have := h q.1
      rw [show Memory.read (q :: n) q.1 = q.2 from by simp [Memory.read]] at this
      exact absurd this.symm (hn.2 q (by simp))
  | cons p m ih =>
    have hp := List.pairwise_cons.mp hm.1
    have read_p : Memory.read (p :: m) p.1 = p.2 := by simp [Memory.read]
    cases n with
    | nil => exact absurd ((h p.1).symm.trans read_p).symm (hm.2 p (by simp))
    | cons q n =>
      have hq := List.pairwise_cons.mp hn.1
      have read_q : Memory.read (q :: n) q.1 = q.2 := by simp [Memory.read]
      have key : p.1 = q.1 := by
        rcases lt_trichotomy p.1 q.1 with hlt | he | hlt
        · have : Memory.read (q :: n) p.1 = Memory.unlisted := by
            apply read_of_not_listed
            intro r hr
            rcases List.mem_cons.mp hr with rfl | hr
            · omega
            · have := hq.1 r hr
              omega
          exact absurd (read_p.symm.trans ((h p.1).trans this)) (hm.2 p (by simp))
        · exact he
        · have : Memory.read (p :: m) q.1 = Memory.unlisted := by
            apply read_of_not_listed
            intro r hr
            rcases List.mem_cons.mp hr with rfl | hr
            · omega
            · have := hp.1 r hr
              omega
          exact absurd (read_q.symm.trans ((h q.1).symm.trans this)) (hn.2 q (by simp))
      have val : p.2 = q.2 := by
        rw [← read_p, h p.1, key, read_q]
      have rest : m = n := by
        refine ih n ⟨hp.2, fun r hr => hm.2 r (by simp [hr])⟩ ⟨hq.2, fun r hr => hn.2 r (by simp [hr])⟩ ?_
        intro a
        by_cases ha : p.1 = a
        · rw [read_of_not_listed m a, read_of_not_listed n a]
          · intro r hr
            have := hq.1 r hr
            omega
          · intro r hr
            have := hp.1 r hr
            omega
        · have := h a
          rwa [show Memory.read (p :: m) a = Memory.read m a from by simp [Memory.read, ha],
            show Memory.read (q :: n) a = Memory.read n a from by simp [Memory.read, ← key, ha]] at this
      rw [rest, Prod.ext key val]

end Sys2Proof.Machine
end

