-- ==== Sys2Proof/Laws/State.lean ====
section
/-! SUPPORT. One lemma per field per update of the state, so that no proof unfolds a record update. -/

namespace Sys2Proof.Machine

/-! ### `fillTmp` -/

@[simp] theorem fillTmp_desc (rows : List (List Sample)) (s : State) : (fillTmp rows s).desc = s.desc := rfl
@[simp] theorem fillTmp_busy (rows : List (List Sample)) (s : State) : (fillTmp rows s).busy = s.busy := rfl
@[simp] theorem fillTmp_done (rows : List (List Sample)) (s : State) : (fillTmp rows s).done = s.done := rfl
@[simp] theorem fillTmp_err (rows : List (List Sample)) (s : State) : (fillTmp rows s).err = s.err := rfl
@[simp] theorem fillTmp_errCode (rows : List (List Sample)) (s : State) : (fillTmp rows s).errCode = s.errCode := rfl
@[simp] theorem fillTmp_cmd (rows : List (List Sample)) (s : State) : (fillTmp rows s).cmd = s.cmd := rfl
@[simp] theorem fillTmp_tmp (rows : List (List Sample)) (s : State) : (fillTmp rows s).tmp = { s.tmp with rows := rows } := rfl
@[simp] theorem fillTmp_mem (rows : List (List Sample)) (s : State) : (fillTmp rows s).mem = s.mem := rfl
@[simp] theorem fillTmp_regions (rows : List (List Sample)) (s : State) : (fillTmp rows s).regions = s.regions := rfl
@[simp] theorem fillTmp_agenda (rows : List (List Sample)) (s : State) : (fillTmp rows s).agenda = s.agenda := rfl
@[simp] theorem fillTmp_reply (rows : List (List Sample)) (s : State) : (fillTmp rows s).reply = s.reply := rfl
@[simp] theorem fillTmp_inFlight (rows : List (List Sample)) (s : State) : (fillTmp rows s).inFlight = s.inFlight := rfl
@[simp] theorem fillTmp_errRecord (rows : List (List Sample)) (s : State) : (fillTmp rows s).errRecord = s.errRecord := rfl
@[simp] theorem fillTmp_freeCount (rows : List (List Sample)) (s : State) : (fillTmp rows s).freeCount = s.freeCount := rfl

/-! ### `releaseTmp` -/

@[simp] theorem releaseTmp_desc (s : State) : (releaseTmp s).desc = s.desc := rfl
@[simp] theorem releaseTmp_busy (s : State) : (releaseTmp s).busy = s.busy := rfl
@[simp] theorem releaseTmp_done (s : State) : (releaseTmp s).done = s.done := rfl
@[simp] theorem releaseTmp_err (s : State) : (releaseTmp s).err = s.err := rfl
@[simp] theorem releaseTmp_errCode (s : State) : (releaseTmp s).errCode = s.errCode := rfl
@[simp] theorem releaseTmp_cmd (s : State) : (releaseTmp s).cmd = s.cmd := rfl
@[simp] theorem releaseTmp_tmp (s : State) : (releaseTmp s).tmp = ⟨s.freeCount, []⟩ := rfl
@[simp] theorem releaseTmp_mem (s : State) : (releaseTmp s).mem = s.mem := rfl
@[simp] theorem releaseTmp_regions (s : State) : (releaseTmp s).regions = s.regions := rfl
@[simp] theorem releaseTmp_agenda (s : State) : (releaseTmp s).agenda = s.agenda := rfl
@[simp] theorem releaseTmp_reply (s : State) : (releaseTmp s).reply = s.reply := rfl
@[simp] theorem releaseTmp_inFlight (s : State) : (releaseTmp s).inFlight = s.inFlight := rfl
@[simp] theorem releaseTmp_errRecord (s : State) : (releaseTmp s).errRecord = s.errRecord := rfl
@[simp] theorem releaseTmp_freeCount (s : State) : (releaseTmp s).freeCount = s.freeCount + 1 := rfl

/-! ### `storeBlock` -/

@[simp] theorem storeBlock_desc (b : Block) (P : Nat → Nat → Sample) (s : State) : (storeBlock b P s).desc = s.desc := rfl
@[simp] theorem storeBlock_busy (b : Block) (P : Nat → Nat → Sample) (s : State) : (storeBlock b P s).busy = s.busy := rfl
@[simp] theorem storeBlock_done (b : Block) (P : Nat → Nat → Sample) (s : State) : (storeBlock b P s).done = s.done := rfl
@[simp] theorem storeBlock_err (b : Block) (P : Nat → Nat → Sample) (s : State) : (storeBlock b P s).err = s.err := rfl
@[simp] theorem storeBlock_errCode (b : Block) (P : Nat → Nat → Sample) (s : State) : (storeBlock b P s).errCode = s.errCode := rfl
@[simp] theorem storeBlock_cmd (b : Block) (P : Nat → Nat → Sample) (s : State) : (storeBlock b P s).cmd = s.cmd := rfl
@[simp] theorem storeBlock_tmp (b : Block) (P : Nat → Nat → Sample) (s : State) : (storeBlock b P s).tmp = s.tmp := rfl
@[simp] theorem storeBlock_mem (b : Block) (P : Nat → Nat → Sample) (s : State) : (storeBlock b P s).mem = Memory.writeAll s.mem (b.cells P) := rfl
@[simp] theorem storeBlock_regions (b : Block) (P : Nat → Nat → Sample) (s : State) : (storeBlock b P s).regions = s.regions := rfl
@[simp] theorem storeBlock_agenda (b : Block) (P : Nat → Nat → Sample) (s : State) : (storeBlock b P s).agenda = s.agenda := rfl
@[simp] theorem storeBlock_reply (b : Block) (P : Nat → Nat → Sample) (s : State) : (storeBlock b P s).reply = s.reply := rfl
@[simp] theorem storeBlock_inFlight (b : Block) (P : Nat → Nat → Sample) (s : State) : (storeBlock b P s).inFlight = s.inFlight := rfl
@[simp] theorem storeBlock_errRecord (b : Block) (P : Nat → Nat → Sample) (s : State) : (storeBlock b P s).errRecord = s.errRecord := rfl
@[simp] theorem storeBlock_freeCount (b : Block) (P : Nat → Nat → Sample) (s : State) : (storeBlock b P s).freeCount = s.freeCount := rfl

/-! ### `errorEntry` -/

@[simp] theorem errorEntry_desc (e : ErrorKind) (s : State) : (errorEntry e s).desc = s.desc := rfl
@[simp] theorem errorEntry_busy (e : ErrorKind) (s : State) : (errorEntry e s).busy = false := rfl
@[simp] theorem errorEntry_done (e : ErrorKind) (s : State) : (errorEntry e s).done = true := rfl
@[simp] theorem errorEntry_err (e : ErrorKind) (s : State) : (errorEntry e s).err = true := rfl
@[simp] theorem errorEntry_errCode (e : ErrorKind) (s : State) : (errorEntry e s).errCode = e.code := rfl
@[simp] theorem errorEntry_cmd (e : ErrorKind) (s : State) : (errorEntry e s).cmd = s.cmd := rfl
@[simp] theorem errorEntry_tmp (e : ErrorKind) (s : State) : (errorEntry e s).tmp = s.tmp := rfl
@[simp] theorem errorEntry_mem (e : ErrorKind) (s : State) : (errorEntry e s).mem = s.mem := rfl
@[simp] theorem errorEntry_regions (e : ErrorKind) (s : State) : (errorEntry e s).regions = s.regions := rfl
@[simp] theorem errorEntry_agenda (e : ErrorKind) (s : State) : (errorEntry e s).agenda = s.agenda := rfl
@[simp] theorem errorEntry_reply (e : ErrorKind) (s : State) : (errorEntry e s).reply = s.reply := rfl
@[simp] theorem errorEntry_inFlight (e : ErrorKind) (s : State) : (errorEntry e s).inFlight = s.inFlight := rfl
@[simp] theorem errorEntry_errRecord (e : ErrorKind) (s : State) : (errorEntry e s).errRecord = s.errRecord ++ [e.code] := rfl
@[simp] theorem errorEntry_freeCount (e : ErrorKind) (s : State) : (errorEntry e s).freeCount = s.freeCount := rfl

/-! ### `complete` -/

@[simp] theorem complete_desc (s : State) : (complete s).desc = s.desc := rfl
@[simp] theorem complete_busy (s : State) : (complete s).busy = false := rfl
@[simp] theorem complete_done (s : State) : (complete s).done = true := rfl
@[simp] theorem complete_err (s : State) : (complete s).err = s.err := rfl
@[simp] theorem complete_errCode (s : State) : (complete s).errCode = s.errCode := rfl
@[simp] theorem complete_cmd (s : State) : (complete s).cmd = s.cmd := rfl
@[simp] theorem complete_tmp (s : State) : (complete s).tmp = s.tmp := rfl
@[simp] theorem complete_mem (s : State) : (complete s).mem = s.mem := rfl
@[simp] theorem complete_regions (s : State) : (complete s).regions = s.regions := rfl
@[simp] theorem complete_agenda (s : State) : (complete s).agenda = s.agenda := rfl
@[simp] theorem complete_reply (s : State) : (complete s).reply = s.reply := rfl
@[simp] theorem complete_inFlight (s : State) : (complete s).inFlight = s.inFlight := rfl
@[simp] theorem complete_errRecord (s : State) : (complete s).errRecord = s.errRecord := rfl
@[simp] theorem complete_freeCount (s : State) : (complete s).freeCount = s.freeCount := rfl

/-! ### `hostRead` -/

@[simp] theorem hostRead_desc (i : Nat) (s : State) : (hostRead i s).desc = s.desc := rfl
@[simp] theorem hostRead_busy (i : Nat) (s : State) : (hostRead i s).busy = s.busy := rfl
@[simp] theorem hostRead_done (i : Nat) (s : State) : (hostRead i s).done = s.done := rfl
@[simp] theorem hostRead_err (i : Nat) (s : State) : (hostRead i s).err = s.err := rfl
@[simp] theorem hostRead_errCode (i : Nat) (s : State) : (hostRead i s).errCode = s.errCode := rfl
@[simp] theorem hostRead_cmd (i : Nat) (s : State) : (hostRead i s).cmd = s.cmd := rfl
@[simp] theorem hostRead_tmp (i : Nat) (s : State) : (hostRead i s).tmp = s.tmp := rfl
@[simp] theorem hostRead_mem (i : Nat) (s : State) : (hostRead i s).mem = s.mem := rfl
@[simp] theorem hostRead_regions (i : Nat) (s : State) : (hostRead i s).regions = s.regions := rfl
@[simp] theorem hostRead_agenda (i : Nat) (s : State) : (hostRead i s).agenda = s.agenda := rfl
@[simp] theorem hostRead_reply (i : Nat) (s : State) : (hostRead i s).reply = some (regRead i s) := rfl
@[simp] theorem hostRead_inFlight (i : Nat) (s : State) : (hostRead i s).inFlight = if i = 17 && s.done && !s.err then [] else s.inFlight := rfl
@[simp] theorem hostRead_errRecord (i : Nat) (s : State) : (hostRead i s).errRecord = s.errRecord := rfl
@[simp] theorem hostRead_freeCount (i : Nat) (s : State) : (hostRead i s).freeCount = s.freeCount := rfl

/-! ### `resetRegisters` -/

@[simp] theorem resetRegisters_desc (s : State) : (resetRegisters s).desc = Vector.replicate 16 0 := rfl
@[simp] theorem resetRegisters_busy (s : State) : (resetRegisters s).busy = false := rfl
@[simp] theorem resetRegisters_done (s : State) : (resetRegisters s).done = false := rfl
@[simp] theorem resetRegisters_err (s : State) : (resetRegisters s).err = false := rfl
@[simp] theorem resetRegisters_errCode (s : State) : (resetRegisters s).errCode = 0 := rfl
@[simp] theorem resetRegisters_cmd (s : State) : (resetRegisters s).cmd = Vector.ofFn fun i => Config.freeCmdWord s.freeCount i.val := rfl
@[simp] theorem resetRegisters_tmp (s : State) : (resetRegisters s).tmp = ⟨s.freeCount, []⟩ := rfl
@[simp] theorem resetRegisters_mem (s : State) : (resetRegisters s).mem = s.mem := rfl
@[simp] theorem resetRegisters_regions (s : State) : (resetRegisters s).regions = s.regions := rfl
@[simp] theorem resetRegisters_agenda (s : State) : (resetRegisters s).agenda = s.agenda := rfl
@[simp] theorem resetRegisters_reply (s : State) : (resetRegisters s).reply = s.reply := rfl
@[simp] theorem resetRegisters_inFlight (s : State) : (resetRegisters s).inFlight = [] := rfl
@[simp] theorem resetRegisters_errRecord (s : State) : (resetRegisters s).errRecord = s.errRecord := rfl
@[simp] theorem resetRegisters_freeCount (s : State) : (resetRegisters s).freeCount = s.freeCount + 1 := rfl

/-! ### `latchCommand` -/

@[simp] theorem latchCommand_desc (d : Descriptor) (s : State) : (latchCommand d s).desc = s.desc := rfl
@[simp] theorem latchCommand_busy (d : Descriptor) (s : State) : (latchCommand d s).busy = true := rfl
@[simp] theorem latchCommand_done (d : Descriptor) (s : State) : (latchCommand d s).done = false := rfl
@[simp] theorem latchCommand_err (d : Descriptor) (s : State) : (latchCommand d s).err = false := rfl
@[simp] theorem latchCommand_errCode (d : Descriptor) (s : State) : (latchCommand d s).errCode = 0 := rfl
@[simp] theorem latchCommand_cmd (d : Descriptor) (s : State) : (latchCommand d s).cmd = d := rfl
@[simp] theorem latchCommand_tmp (d : Descriptor) (s : State) : (latchCommand d s).tmp = s.tmp := rfl
@[simp] theorem latchCommand_mem (d : Descriptor) (s : State) : (latchCommand d s).mem = s.mem := rfl
@[simp] theorem latchCommand_regions (d : Descriptor) (s : State) : (latchCommand d s).regions = s.regions := rfl
@[simp] theorem latchCommand_agenda (d : Descriptor) (s : State) : (latchCommand d s).agenda = [] := rfl
@[simp] theorem latchCommand_reply (d : Descriptor) (s : State) : (latchCommand d s).reply = s.reply := rfl
@[simp] theorem latchCommand_inFlight (d : Descriptor) (s : State) : (latchCommand d s).inFlight = s.inFlight ++ [d] := rfl
@[simp] theorem latchCommand_errRecord (d : Descriptor) (s : State) : (latchCommand d s).errRecord = s.errRecord := rfl
@[simp] theorem latchCommand_freeCount (d : Descriptor) (s : State) : (latchCommand d s).freeCount = s.freeCount := rfl

/-! ### The next action taken off the agenda -/

@[simp] theorem withAgenda_desc (s : State) (l : List Action) : ({ s with agenda := l } : State).desc = s.desc := rfl
@[simp] theorem withAgenda_busy (s : State) (l : List Action) : ({ s with agenda := l } : State).busy = s.busy := rfl
@[simp] theorem withAgenda_done (s : State) (l : List Action) : ({ s with agenda := l } : State).done = s.done := rfl
@[simp] theorem withAgenda_err (s : State) (l : List Action) : ({ s with agenda := l } : State).err = s.err := rfl
@[simp] theorem withAgenda_errCode (s : State) (l : List Action) : ({ s with agenda := l } : State).errCode = s.errCode := rfl
@[simp] theorem withAgenda_cmd (s : State) (l : List Action) : ({ s with agenda := l } : State).cmd = s.cmd := rfl
@[simp] theorem withAgenda_tmp (s : State) (l : List Action) : ({ s with agenda := l } : State).tmp = s.tmp := rfl
@[simp] theorem withAgenda_mem (s : State) (l : List Action) : ({ s with agenda := l } : State).mem = s.mem := rfl
@[simp] theorem withAgenda_regions (s : State) (l : List Action) : ({ s with agenda := l } : State).regions = s.regions := rfl
@[simp] theorem withAgenda_agenda (s : State) (l : List Action) : ({ s with agenda := l } : State).agenda = l := rfl
@[simp] theorem withAgenda_reply (s : State) (l : List Action) : ({ s with agenda := l } : State).reply = s.reply := rfl
@[simp] theorem withAgenda_inFlight (s : State) (l : List Action) : ({ s with agenda := l } : State).inFlight = s.inFlight := rfl
@[simp] theorem withAgenda_errRecord (s : State) (l : List Action) : ({ s with agenda := l } : State).errRecord = s.errRecord := rfl
@[simp] theorem withAgenda_freeCount (s : State) (l : List Action) : ({ s with agenda := l } : State).freeCount = s.freeCount := rfl

end Sys2Proof.Machine
end

