-- ==== Sys2Proof/Laws/Block.lean ====
section
/-! SUPPORT. The store loop: which bytes it writes, with what, and what it leaves alone (R56, R61). -/

namespace Sys2Proof.Machine

/-- The address of a row and a column that are not negative, as a natural number. -/
theorem addr_natCast (A S y x : Nat) : addr A S (y : Int) (x : Int) = ((A + y * S + x : Nat) : Int) := by
  simp [addr]

theorem memRead_natCast (m : Memory) (a : Nat) : memRead m (a : Int) = Memory.read m a := by
  simp [memRead]

theorem dstSample_eq (m : Memory) (b : Block) (y x : Nat) :
    memRead m (addr b.dst b.stride (y : Int) (x : Int)) = Memory.read m (b.dst + y * b.stride + x) := by
  rw [addr_natCast, memRead_natCast]

/-- The pairs of the store loop (R61). -/
theorem mem_cells (b : Block) (P : Nat → Nat → Sample) (p : Host.Cell) :
    p ∈ b.cells P ↔ ∃ y x : Nat, y < b.h ∧ x < b.w ∧ p = (b.dst + y * b.stride + x, P y x) := by
  unfold Block.cells
  simp only [List.mem_flatMap, List.mem_map, List.mem_range, addr_natCast, Int.toNat_natCast]
  constructor
  · rintro ⟨y, hy, x, hx, rfl⟩
    exact ⟨y, x, hy, hx, rfl⟩
  · rintro ⟨y, x, hy, hx, rfl⟩
    exact ⟨y, hy, x, hx, rfl⟩

theorem inWriteSet_natCast (b : Block) (a : Nat) :
    InWriteSet b (a : Int) ↔ ∃ y x : Nat, y < b.h ∧ x < b.w ∧ a = b.dst + y * b.stride + x := by
  unfold InWriteSet
  constructor
  · rintro ⟨y, x, hy, hx, he⟩
    exact ⟨y, x, hy, hx, by exact_mod_cast he⟩
  · rintro ⟨y, x, hy, hx, he⟩
    exact ⟨y, x, hy, hx, by exact_mod_cast he⟩

/-- With a stride of at least the width the `W*H` addresses are distinct (R61). -/
theorem cell_address_inj {W S y x y' x' : Nat} (hS : W ≤ S) (hx : x < W) (hx' : x' < W)
    (h : y * S + x = y' * S + x') : y = y' ∧ x = x' := by
  have hxS : x < S := by omega
  have hxS' : x' < S := by omega
  have hdiv : (y * S + x) / S = y := by
    rw [Nat.add_comm, Nat.add_mul_div_right _ _ (by omega), Nat.div_eq_of_lt hxS, Nat.zero_add]
  have hdiv' : (y' * S + x') / S = y' := by
    rw [Nat.add_comm, Nat.add_mul_div_right _ _ (by omega), Nat.div_eq_of_lt hxS', Nat.zero_add]
  have hy : y = y' := by rw [← hdiv, h, hdiv']
  subst hy
  exact ⟨rfl, by omega⟩

/-- A byte outside the write set reads as before (R56); no hypothesis on the strides is needed. -/
theorem storeBlock_read_outside (b : Block) (P : Nat → Nat → Sample) (s : State) (a : Nat)
    (h : ¬ InWriteSet b (a : Int)) : Memory.read (storeBlock b P s).mem a = Memory.read s.mem a := by
  rw [storeBlock_mem]
  apply read_writeAll_of_not_mem
  rintro p hp he
  obtain ⟨y, x, hy, hx, rfl⟩ := (mem_cells b P p).mp hp
  exact h ((inWriteSet_natCast b a).mpr ⟨y, x, hy, hx, he.symm⟩)

/-- A byte of the write set reads as its sample. -/
theorem storeBlock_read_inside (b : Block) (P : Nat → Nat → Sample) (s : State) (hS : b.w ≤ b.stride) (y x : Nat)
    (hy : y < b.h) (hx : x < b.w) :
    Memory.read (storeBlock b P s).mem (b.dst + y * b.stride + x) = P y x := by
  rw [storeBlock_mem]
  apply read_writeAll_of_mem
  · exact (mem_cells b P _).mpr ⟨y, x, hy, hx, rfl⟩
  · rintro q hq he
    obtain ⟨y', x', hy', hx', rfl⟩ := (mem_cells b P q).mp hq
    have he : y' * b.stride + x' = y * b.stride + x := by
      simp only at he
      omega
    obtain ⟨rfl, rfl⟩ := cell_address_inj hS hx' hx he
    rfl

/-- The store loop writes exactly the block (R56, R61). -/
theorem storeBlock_written (b : Block) (P : Nat → Nat → Sample) (s : State) (hS : b.w ≤ b.stride) :
    BlockWritten b P s (storeBlock b P s) :=
  ⟨fun y x hy hx => storeBlock_read_inside b P s hS y x hy hx, fun a ha => storeBlock_read_outside b P s a ha⟩

/-- The store loop keeps the canonical form. -/
theorem storeBlock_wf (b : Block) (P : Nat → Nat → Sample) (s : State) (h : Memory.wf s.mem = true) :
    Memory.wf (storeBlock b P s).mem = true := wf_writeAll _ _ h

/-- Every pair after the store loop is in the write set or was there before. -/
theorem storeBlock_mem_cases (b : Block) (P : Nat → Nat → Sample) (s : State) (p : Host.Cell)
    (h : p ∈ (storeBlock b P s).mem) : InWriteSet b (p.1 : Int) ∨ p ∈ s.mem := by
  rcases mem_writeAll _ _ _ h with ⟨q, hq, he⟩ | h
  · obtain ⟨y, x, hy, hx, rfl⟩ := (mem_cells b P q).mp hq
    exact .inl ((inWriteSet_natCast b p.1).mpr ⟨y, x, hy, hx, he⟩)
  · exact .inr h

/-- The samples inside the block are all that `BlockWritten` looks at. -/
theorem blockWritten_congr {b : Block} {P Q : Nat → Nat → Sample} {s t : State} (h : BlockWritten b P s t)
    (he : ∀ y x, y < b.h → x < b.w → P y x = Q y x) : BlockWritten b Q s t :=
  ⟨fun y x hy hx => (h.1 y x hy hx).trans (he y x hy hx), h.2⟩

/-- Two stores of the same samples to the same block leave the same memory. -/
theorem blockWritten_unique {b : Block} {P Q : Nat → Nat → Sample} {s t u : State} (h : BlockWritten b P s t)
    (h' : BlockWritten b Q s u) (he : ∀ y x, y < b.h → x < b.w → P y x = Q y x) : SameMemory u t := by
  intro a
  by_cases ha : InWriteSet b (a : Int)
  · obtain ⟨y, x, hy, hx, rfl⟩ := (inWriteSet_natCast b a).mp ha
    rw [h.1 y x hy hx, h'.1 y x hy hx, he y x hy hx]
  · rw [h.2 a ha, h'.2 a ha]

/-- The pairs of the store loop depend on the samples inside the block alone. -/
theorem cells_congr (b : Block) (P Q : Nat → Nat → Sample) (h : ∀ y x, y < b.h → x < b.w → P y x = Q y x) :
    b.cells P = b.cells Q := by
  unfold Block.cells
  apply List.flatMap_congr
  intro y hy
  apply List.map_congr_left
  intro x hx
  rw [h y x (List.mem_range.mp hy) (List.mem_range.mp hx)]

end Sys2Proof.Machine
end

