-- ==== Sys2Proof/Laws/Footprint.lean ====
section
/-! SUPPORT. The model's rectangles of addresses are the sets of R61 to R64, and its tests on them say what R53, R72 and
R227 say of every address. -/

namespace Sys2Proof.Machine

/-- `a` is the address of some row and column of the rectangle (R60). -/
def InRect (q : Rect) (a : Int) : Prop :=
  ∃ r k : Nat, r < q.rows ∧ k < q.cols ∧ a = q.base + (r : Int) * (q.stride : Int) + (k : Int)

theorem covers_iff (q : Rect) (a : Int) : q.covers a = true ↔ InRect q a := by
  unfold Rect.covers InRect Rect.rowStart
  simp only [List.any_eq_true, List.mem_range, Bool.and_eq_true, decide_eq_true_iff]
  constructor
  · rintro ⟨r, hr, h1, h2⟩
    refine ⟨r, (a - (q.base + (r : Int) * (q.stride : Int))).toNat, hr, ?_, ?_⟩
    · omega
    · omega
  · rintro ⟨r, k, hr, hk, rfl⟩
    exact ⟨r, hr, by omega, by omega⟩

theorem meets_iff (p q : Rect) : p.meets q = true ↔ ∃ a, InRect p a ∧ InRect q a := by
  simp only [← covers_iff]
  unfold Rect.meets Rect.covers
  simp only [List.any_eq_true, List.mem_range, Bool.and_eq_true, decide_eq_true_iff]
  constructor
  · rintro ⟨r, hr, t, ht, ⟨⟨hp, hq⟩, h1⟩, h2⟩
    by_cases h : p.rowStart r ≤ q.rowStart t
    · exact ⟨q.rowStart t, ⟨r, hr, h, h2⟩, ⟨t, ht, le_refl _, by omega⟩⟩
    · exact ⟨p.rowStart r, ⟨r, hr, le_refl _, by omega⟩, ⟨t, ht, by omega, h1⟩⟩
  · rintro ⟨a, ⟨r, hr, h1, h2⟩, ⟨t, ht, h3, h4⟩⟩
    exact ⟨r, hr, t, ht, ⟨⟨by omega, by omega⟩, by omega⟩, by omega⟩

theorem allValid_iff (q : Rect) (s : State) : q.allValid s = true ↔ ∀ a, InRect q a → s.valid a = true := by
  unfold Rect.allValid InRect Rect.rowStart
  simp only [List.all_eq_true, List.mem_range]
  constructor
  · rintro h a ⟨r, k, hr, hk, rfl⟩
    exact h r hr k hk
  · intro h r hr k hk
    exact h _ ⟨r, k, hr, hk, rfl⟩

/-- The lowest and the highest address decide the range check of a rectangle with a row and a column (R65, R227). -/
theorem inSpace_iff (q : Rect) (hr : 1 ≤ q.rows) (hc : 1 ≤ q.cols) :
    q.inSpace = true ↔ ∀ a, InRect q a → 0 ≤ a ∧ a < 4294967296 := by
  unfold Rect.inSpace Rect.lo Rect.hi InRect Rect.rowStart
  rw [Bool.and_eq_true, decide_eq_true_iff, decide_eq_true_iff]
  simp only [Config.addressSpace, Nat.cast_ofNat]
  have hrows : ((q.rows - 1 : Nat) : Int) = (q.rows : Int) - 1 := by omega
  constructor
  · rintro ⟨hlo, hhi⟩ a ⟨r, k, hr', hk, rfl⟩
    have h0 : 0 ≤ (r : Int) * (q.stride : Int) := by positivity
    have h1 : (r : Int) * (q.stride : Int) ≤ ((q.rows - 1 : Nat) : Int) * (q.stride : Int) :=
      mul_le_mul_of_nonneg_right (by omega) (by omega)
    constructor <;> omega
  · intro h
    have hfirst := h _ ⟨0, 0, by omega, by omega, rfl⟩
    have hlast := h _ ⟨q.rows - 1, q.cols - 1, by omega, by omega, rfl⟩
    simp only [Nat.cast_zero, zero_mul, add_zero] at hfirst
    have hcols : ((q.cols - 1 : Nat) : Int) = (q.cols : Int) - 1 := by omega
    rw [hcols] at hlast
    constructor <;> omega

/-! ### Each set -/

theorem inRect_writeSet (b : Block) (a : Int) : InRect b.rect a ↔ InWriteSet b a := Iff.rfl

theorem inRect_aboveSet (c : IntraCmd) (a : Int) : InRect (aboveSet c) a ↔ InAbove c a := by
  unfold InRect aboveSet InAbove
  constructor
  · rintro ⟨r, k, _, hk, rfl⟩
    exact ⟨k, hk, by simp⟩
  · rintro ⟨x, hx, rfl⟩
    exact ⟨0, x, by simp, hx, by simp⟩

theorem inRect_leftSet (c : IntraCmd) (a : Int) : InRect (leftSet c) a ↔ InLeft c a := by
  unfold InRect leftSet InLeft
  constructor
  · rintro ⟨r, k, _, hk, rfl⟩
    exact ⟨k, hk, by simp⟩
  · rintro ⟨x, hx, rfl⟩
    exact ⟨0, x, by simp, hx, by simp⟩

theorem inRect_windowSet (c : InterCmd) (a : Int) : InRect (windowSet c) a ↔ InWindow c a := by
  unfold InRect windowSet InWindow addr
  dsimp only
  constructor
  · rintro ⟨r, k, hr, hk, rfl⟩
    refine ⟨(r : Int) - ((classY c).before : Int), (k : Int) - ((classX c).before : Int), by omega, by omega, by omega, by omega, ?_⟩
    ring
  · rintro ⟨r, k, hr1, hr2, hk1, hk2, rfl⟩
    refine ⟨(r + ((classY c).before : Int)).toNat, (k + ((classX c).before : Int)).toNat, by omega, by omega, ?_⟩
    rw [Int.toNat_of_nonneg (by omega), Int.toNat_of_nonneg (by omega)]
    ring

/-- The rectangles of `sourceSets` hold exactly the addresses the rules list (R62, R64). -/
theorem inSource_iff (i : Instr) (a : Int) : InSource i a ↔ ∃ q ∈ sourceSets i, InRect q a := by
  cases i with
  | interPut c => simp [InSource, sourceSets, inRect_windowSet]
  | interAvg c => simp [InSource, sourceSets, inRect_windowSet]
  | intraV c => simp [InSource, sourceSets, inRect_aboveSet]
  | intraH c => simp [InSource, sourceSets, inRect_leftSet]
  | intraDc c =>
    cases ha : c.hasAbove <;> cases hl : c.hasLeft <;>
      simp [InSource, sourceSets, inRect_aboveSet, inRect_leftSet, ha, hl]
  | intraTm c => simp [InSource, sourceSets, inRect_aboveSet, inRect_leftSet]

/-- The rectangles of `readSets` hold exactly the read set (R62 to R64). -/
theorem inReadSet_iff (i : Instr) (a : Int) : InReadSet i a ↔ ((readSets i).any fun q => q.covers a) = true := by
  have key : ((sourceSets i).any fun q => q.covers a) = true ↔ InSource i a := by
    rw [inSource_iff]
    simp [List.any_eq_true, covers_iff]
  cases i with
  | interAvg c =>
    have : ((writeSet (.interAvg c)).covers a) = true ↔ InWriteSet (interBlock c) a := by
      rw [covers_iff]
      exact inRect_writeSet _ _
    simp only [readSets, List.any_append, Bool.or_eq_true, List.any_cons, List.any_nil, Bool.or_false, InReadSet, this, key]
    exact Iff.rfl
  | interPut c => exact key.symm
  | intraV c => exact key.symm
  | intraH c => exact key.symm
  | intraDc c => exact key.symm
  | intraTm c => exact key.symm

theorem writeSet_covers_iff (i : Instr) (a : Int) : (writeSet i).covers a = true ↔ InWriteSet (blockOf i) a :=
  covers_iff _ _

/-- The test of `Valid` says it of every byte of the footprint (R53). -/
theorem footprintValid_iff (i : Instr) (s : State) :
    footprintValid i s = true ↔ FootprintValid i s := by
  unfold footprintValid FootprintValid
  simp only [Bool.and_eq_true, List.all_eq_true, allValid_iff, inSource_iff]
  constructor
  · rintro ⟨hw, hs⟩ a (⟨q, hq, ha⟩ | ha)
    · exact hs q hq a ha
    · exact hw a ha
  · intro h
    exact ⟨fun a ha => h a (.inr ha), fun q hq a ha => h a (.inl ⟨q, hq, ha⟩)⟩

/-- The test of overlap says it of every byte of the sources (R72). -/
theorem footprintOverlaps_false_iff (i : Instr) :
    footprintOverlaps i = false ↔ ∀ a, InSource i a → ¬ InWriteSet (blockOf i) a := by
  unfold footprintOverlaps
  rw [← Bool.not_eq_true, List.any_eq_true]
  simp only [meets_iff, inSource_iff]
  constructor
  · rintro h a ⟨q, hq, ha⟩ hw
    exact h ⟨q, hq, a, ha, hw⟩
  · rintro h ⟨q, hq, a, ha, hw⟩
    exact h a ⟨q, hq, ha⟩ hw

/-- The launch tests say what the contract says (R53, R72). -/
theorem contractKept_iff (i : Instr) (s : State) :
    ContractKept i s ↔ footprintValid i s = true ∧ footprintOverlaps i = false := by
  rw [footprintValid_iff, footprintOverlaps_false_iff]
  exact Iff.rfl

/-! ### The ends of each set (R65) -/

theorem writeSet_inSpace_false_iff (b : Block) (hw : 1 ≤ b.w) : b.rect.inSpace = false ↔ EndsOutside b := by
  rw [← Bool.not_eq_true]
  unfold Rect.inSpace Rect.lo Rect.hi Rect.rowStart Block.rect EndsOutside Config.addressSpace
  rw [Bool.and_eq_true, decide_eq_true_iff, decide_eq_true_iff]
  have : (((b.h - 1) * b.stride : Nat) : Int) = ((b.h - 1 : Nat) : Int) * b.stride := by push_cast; rfl
  push_cast
  rw [← this]
  omega

theorem aboveSet_inSpace_false_iff (c : IntraCmd) (h : 1 ≤ c.w) :
    (aboveSet c).inSpace = false ↔ c.aboveAddr + (c.w - 1) > 4294967295 := by
  rw [← Bool.not_eq_true]
  unfold Rect.inSpace Rect.lo Rect.hi Rect.rowStart aboveSet Config.addressSpace
  rw [Bool.and_eq_true, decide_eq_true_iff, decide_eq_true_iff]
  push_cast
  simp
  omega

theorem leftSet_inSpace_false_iff (c : IntraCmd) (h : 1 ≤ c.h) :
    (leftSet c).inSpace = false ↔ c.leftAddr + (c.h - 1) > 4294967295 := by
  rw [← Bool.not_eq_true]
  unfold Rect.inSpace Rect.lo Rect.hi Rect.rowStart leftSet Config.addressSpace
  rw [Bool.and_eq_true, decide_eq_true_iff, decide_eq_true_iff]
  push_cast
  simp
  omega

theorem windowSet_inSpace_false_iff (c : InterCmd) (h : 1 ≤ c.h) :
    (windowSet c).inSpace = false ↔
      (c.srcAddr : Int) - (classY c).before * c.srcStride - (classX c).before < 0 ∨
      (c.srcAddr : Int) + ((c.h : Int) - 1 + (classY c).after) * c.srcStride + ((c.w : Int) - 1 + (classX c).after) > 4294967295 := by
  rw [← Bool.not_eq_true]
  unfold Rect.inSpace Rect.lo Rect.hi Rect.rowStart windowSet Config.addressSpace addr
  rw [Bool.and_eq_true, decide_eq_true_iff, decide_eq_true_iff]
  have hrows : ((c.h + (classY c).before + (classY c).after - 1 : Nat) : Int) =
      (c.h : Int) - 1 + (classY c).after + (classY c).before := by omega
  dsimp only
  rw [hrows]
  have hhi : (c.srcAddr : Int) + -((classY c).before : Int) * c.srcStride + -((classX c).before : Int) +
      ((c.h : Int) - 1 + (classY c).after + (classY c).before) * c.srcStride +
      (((c.w + (classX c).before + (classX c).after : Nat) : Int) - 1) =
      (c.srcAddr : Int) + ((c.h : Int) - 1 + (classY c).after) * c.srcStride + ((c.w : Int) - 1 + (classX c).after) := by
    push_cast
    ring
  have hlo : (c.srcAddr : Int) + -((classY c).before : Int) * c.srcStride + -((classX c).before : Int) =
      (c.srcAddr : Int) - (classY c).before * c.srcStride - (classX c).before := by ring
  rw [hhi, hlo]
  push_cast
  constructor
  · intro h
    by_contra hh
    push Not at hh
    apply h
    constructor <;> linarith
  · rintro h ⟨h1, h2⟩
    rcases h with h | h <;> linarith

end Sys2Proof.Machine
end

