-- ==== Sys2Proof/Laws/Checks.lean ====
section
/-! SUPPORT. The checks against the rules that state them (R222 to R227), and what the frame of every command can do. -/

namespace Sys2Proof.Machine

theorem coeffSum_eq (f : Kernel) : coeffSum f = f.t0 + f.t1 + f.t2 + f.t3 + f.t4 + f.t5 + f.t6 + f.t7 := by
  simp [coeffSum, Kernel.taps]
  ring

theorem badSize_false_iff (b : Block) : badSize b = false ↔ SizeOk b := by
  unfold badSize SizeOk Config.maxDim
  simp only [Bool.or_eq_false_iff, decide_eq_false_iff_not]
  omega

/-- Where the size check passes, the range check is R227's, address by address. -/
theorem badAddr_false_iff (i : Instr) (hs : SizeOk (blockOf i)) : badAddr i = false ↔ AddrOk i := by
  obtain ⟨hw1, hw2, hh1, hh2⟩ := hs
  have hwrite : (writeSet i).inSpace = true ↔ ∀ a, InWriteSet (blockOf i) a → 0 ≤ a ∧ a < 4294967296 :=
    inSpace_iff _ hh1 hw1
  have hsource : ∀ q ∈ sourceSets i, (q.inSpace = true ↔ ∀ a, InRect q a → 0 ≤ a ∧ a < 4294967296) := by
    intro q hq
    apply inSpace_iff
    all_goals
      cases i <;> simp only [blockOf, interBlock, intraBlock] at hw1 hh1 <;> simp [sourceSets, windowSet, aboveSet, leftSet] at hq
      · subst hq; simp only; omega
      · subst hq; simp only; omega
      · subst hq; simp only; omega
      · subst hq; simp only; omega
      · rcases hq with ⟨_, rfl⟩ | ⟨_, rfl⟩ <;> simp only <;> omega
      · rcases hq with rfl | rfl <;> simp only <;> omega
  unfold badAddr AddrOk
  rw [Bool.not_eq_false', Bool.and_eq_true, List.all_eq_true, hwrite]
  constructor
  · rintro ⟨h1, h2⟩ a (ha | ha)
    · obtain ⟨q, hq, hqa⟩ := (inSource_iff i a).mp ha
      exact (hsource q hq).mp (h2 q hq) a hqa
    · exact h1 a ha
  · intro h
    exact ⟨fun a ha => h a (.inr ha),
      fun q hq => (hsource q hq).mpr fun a ha => h a (.inl ((inSource_iff i a).mpr ⟨q, hq, ha⟩))⟩

/-- No check fails (R230). -/
theorem firstFailingCheck_none_bad (i : Instr) :
    firstFailingCheck i = none ↔ badSize (blockOf i) = false ∧ badStride i = false ∧ badStep i = false ∧
      badCoeff i = false ∧ badNeighbor i = false ∧ badAddr i = false := by
  unfold firstFailingCheck
  repeat' split
  all_goals simp_all

theorem interBadStep_false_iff (c : InterCmd) : interBadStep c = false ↔ c.stepX = 16 ∧ c.stepY = 16 := by
  rw [interBadStep, Bool.or_eq_false_iff, decide_eq_false_iff_not, decide_eq_false_iff_not, not_not, not_not]
  rfl

theorem interBadCoeff_false_iff (c : InterCmd) : interBadCoeff c = false ↔ coeffSum c.fx = 128 ∧ coeffSum c.fy = 128 := by
  rw [interBadCoeff, Bool.or_eq_false_iff, decide_eq_false_iff_not, decide_eq_false_iff_not, not_not, not_not]
  rfl

/-! The model's check of each code says what the rule says. -/

theorem badStride_iff (i : Instr) : badStride i = true ↔ StrideBroken i := by
  cases i <;> simp [badStride, StrideBroken, blockOf, interBlock, intraBlock]

theorem badStep_iff (i : Instr) : badStep i = true ↔ StepBroken i := by
  cases i <;> simp only [badStep, StepBroken, interBadStep, Bool.or_eq_true, decide_eq_true_iff, Bool.false_eq_true] <;> rfl

theorem badCoeff_iff (i : Instr) : badCoeff i = true ↔ CoeffBroken i := by
  cases i <;> simp [badCoeff, CoeffBroken, interBadCoeff, NotNormalized, coeffSum_eq, Config.kernelUnity]

theorem badNeighbor_iff (i : Instr) : badNeighbor i = true ↔ NeighborBroken i := by
  cases i <;> simp [badNeighbor, NeighborBroken]

/-- No check fails exactly where every check of R222 to R227 passes (R230). -/
theorem firstFailingCheck_none_iff (i : Instr) : firstFailingCheck i = none ↔ ChecksPass i := by
  unfold ChecksPass
  rw [firstFailingCheck_none_bad, badSize_false_iff]
  constructor
  · rintro ⟨hs, h1, h2, h3, h4, h5⟩
    refine ⟨hs, (badAddr_false_iff i hs).mp h5, ?_⟩
    cases i <;>
      simp_all [badStride, badStep, badCoeff, badNeighbor, InterOk, interBadStep_false_iff, interBadCoeff_false_iff, coeffSum_eq]
  · rintro ⟨hs, ha, h⟩
    refine ⟨hs, ?_, ?_, ?_, ?_, (badAddr_false_iff i hs).mpr ha⟩ <;>
      cases i <;>
      simp_all [badStride, badStep, badCoeff, badNeighbor, InterOk, interBadStep_false_iff, interBadCoeff_false_iff, coeffSum_eq]

/-- Everything `launch` can do. -/
theorem launch_cases (i : Instr) (effect : State → State) (s : State) :
    (ContractKept i s ∧ launch i effect s = .next (effect s)) ∨
    (footprintValid i s = false ∧ launch i effect s = .fault .launchMemory) ∨
    (footprintValid i s = true ∧ footprintOverlaps i = true ∧ launch i effect s = .refused .overlap) := by
  unfold launch
  rw [contractKept_iff]
  cases footprintValid i s <;> cases footprintOverlaps i <;> simp

theorem launch_of_contract {i : Instr} {s : State} (h : ContractKept i s) (effect : State → State) :
    launch i effect s = .next (effect s) := by
  obtain ⟨hv, ho⟩ := (contractKept_iff i s).mp h
  simp [launch, hv, ho]

/-- A command that passes every check and keeps the contract has its effect and completes (R205, R207). -/
theorem runCommand_of_pass {i : Instr} {s : State} (hc : ChecksPass i) (hk : ContractKept i s) (effect : State → State) :
    runCommand i effect s = .next (complete (effect s)) := by
  unfold runCommand
  rw [(firstFailingCheck_none_iff i).mpr hc]
  exact launch_of_contract hk _

/-- Everything a command can do that answers a next state: record an error (R231), or complete (R207). -/
theorem runCommand_next {i : Instr} {effect : State → State} {s t : State} (h : runCommand i effect s = .next t) :
    (∃ e, firstFailingCheck i = some e ∧ t = errorEntry e s) ∨
    (ChecksPass i ∧ ContractKept i s ∧ t = complete (effect s)) := by
  unfold runCommand at h
  cases hf : firstFailingCheck i with
  | some e =>
    rw [hf] at h
    exact .inl ⟨e, rfl, (by injection h with h; exact h.symm)⟩
  | none =>
    rw [hf] at h
    rcases launch_cases i (fun t => complete (effect t)) s with ⟨hk, he⟩ | ⟨_, he⟩ | ⟨_, _, he⟩
    · refine .inr ⟨(firstFailingCheck_none_iff i).mp hf, hk, ?_⟩
      rw [he] at h
      injection h with h
      exact h.symm
    · rw [he] at h
      cases h
    · rw [he] at h
      cases h

/-- With the earlier checks passed, the address check alone decides (R230). -/
theorem firstFailingCheck_addr_iff (i : Instr) (h1 : badSize (blockOf i) = false) (h2 : badStride i = false)
    (h3 : badStep i = false) (h4 : badCoeff i = false) (h5 : badNeighbor i = false) :
    firstFailingCheck i = some .addr ↔ badAddr i = true := by
  simp only [firstFailingCheck, h1, h2, h3, h4, h5]
  by_cases hx : badAddr i = true
  · simp only [hx]
    simp
  · rw [Bool.not_eq_true] at hx
    simp only [hx]
    simp

end Sys2Proof.Machine
end

