-- ==== Sys2Proof/Laws/Filter.lean ====
section
/-! SUPPORT. The filter kernel: the clamp, the explicit sum of eight products, and the class-specific forms against the
general one (R113 to R118, R133). -/

namespace Sys2Proof.Machine

@[simp] theorem roundAdd_eq : Config.roundAdd = 64 := rfl
@[simp] theorem filterBits_eq : Config.filterBits = 7 := rfl
@[simp] theorem stepUnity_eq : Config.stepUnity = 16 := rfl

/-- `SAT` clamps to 0 to 255 (R113). -/
theorem sat8_toNat (v : Int) : (((sat8 v).toNat : Nat) : Int) = max 0 (min v 255) := by
  unfold sat8
  rw [BitVec.toNat_ofNat]
  omega

/-- A Sample clamps to itself. -/
theorem sat8_sample (b : Sample) : sat8 (b.toNat : Int) = b := by
  apply BitVec.eq_of_toNat_eq
  have := sat8_toNat (b.toNat : Int)
  have := b.isLt
  omega

theorem roundShift_eq (a : Int) : roundShift a = (a + 64) / 128 := by
  simp [roundShift]

/-- `apply_kernel` on any samples and coefficients, from the sum of products (R114). -/
theorem applyKernel_toNat (s : List Sample) (f : List Int) :
    (((applyKernel s f).toNat : Nat) : Int) = max 0 (min ((mac s f + 64) / 128) 255) := by
  rw [applyKernel, sat8_toNat, roundShift_eq]

/-- The sum of products of the 8-tap form, tap `k` on the sample at `p + k - 3` (R110, R133). -/
theorem mac_taps (line : Int → Sample) (p : Int) (f : Kernel) :
    mac [line (p - 3), line (p - 2), line (p - 1), line p, line (p + 1), line (p + 2), line (p + 3), line (p + 4)] f.taps =
      ((line (p - 3)).toNat : Int) * f.t0 + (((line (p - 2)).toNat : Int) * f.t1 + (((line (p - 1)).toNat : Int) * f.t2 +
      (((line p).toNat : Int) * f.t3 + (((line (p + 1)).toNat : Int) * f.t4 + (((line (p + 2)).toNat : Int) * f.t5 +
      (((line (p + 3)).toNat : Int) * f.t6 + ((line (p + 4)).toNat : Int) * f.t7)))))) := by
  simp [mac, Kernel.taps]

/-- Only six zero taps make the 2-tap path the 8-tap one (R115). -/
theorem k8_eq_k2 (line : Int → Sample) (p : Int) (f : Kernel)
    (h : f.t0 = 0 ∧ f.t1 = 0 ∧ f.t2 = 0 ∧ f.t5 = 0 ∧ f.t6 = 0 ∧ f.t7 = 0) :
    k8 line p f = k2 (line p) (line (p + 1)) f := by
  obtain ⟨h0, h1, h2, h5, h6, h7⟩ := h
  unfold k8 k2 applyKernel
  rw [mac_taps, h0, h1, h2, h5, h6, h7]
  simp [mac]

/-- The identity kernel returns the sample at the output position (R116). -/
theorem k8_identity (line : Int → Sample) (p : Int) : k8 line p Kernel.identity = line p := by
  unfold k8 applyKernel
  rw [mac_taps]
  simp only [Kernel.identity, mul_zero, add_zero, zero_add, roundShift_eq]
  rw [show (((line p).toNat : Int) * 128 + 64) / 128 = ((line p).toNat : Int) by omega, sat8_sample]

/-- Whatever its class, an axis has the general 8-tap filter's value (R133). -/
theorem filt_eq_k8 (step : Nat) (f : Kernel) (line : Int → Sample) (p : Int) :
    filt (classOf step f) f line p = k8 line p f := by
  unfold classOf
  split
  · rename_i h
    rw [h.2, k8_identity]
    rfl
  · split
    · rename_i h
      rw [k8_eq_k2 line p f h]
      rfl
    · rfl

/-- `BLEND` as a number; nothing is lost in the eight bits (R160). -/
theorem blend_toNat (d n : Sample) : (blend d n).toNat = (d.toNat + n.toNat + 1) / 2 := by
  have := d.isLt
  have := n.isLt
  unfold blend
  rw [BitVec.toNat_ofNat]
  omega

/-- What the horizontal pass wrote in row `r + by` is read back (R137). -/
theorem tmp_read_rows (m : Memory) (c : InterCmd) (gen row x : Nat)
    (hr : row < c.h + (classY c).before + (classY c).after) (hx : x < c.w) :
    Tmp.read ⟨gen, intermediateRows m c⟩ row x = horizontal m c ((row : Int) - ((classY c).before : Int)) (x : Int) := by
  simp [Tmp.read, intermediateRows, hr, hx]

end Sys2Proof.Machine
end

