-- ==== Sys2Proof/Laws/Exec.lean ====
section
/-! SUPPORT. Every command is one effect in one frame: what the effect stores and what it leaves alone, and everything
`exec` can do (R205, R206). -/

namespace Sys2Proof.Machine

/-- What a command does once its checks have passed. -/
def effectOf : Instr → State → State
  | .interPut c => interPutEffect c
  | .interAvg c => interAvgEffect c
  | .intraV c => intraVEffect c
  | .intraH c => intraHEffect c
  | .intraDc c => intraDcEffect c
  | .intraTm c => intraTmEffect c

/-- The samples a command stores, from the state before it. -/
def samplesOf (i : Instr) (s : State) (y x : Nat) : Sample :=
  match i with
  | .interPut c => predictor c (firstPass c s) y x
  | .interAvg c => blend (dstSample s.mem (interBlock c) y x) (predictor c (firstPass c s) y x)
  | .intraV c => predictV s.mem c y x
  | .intraH c => predictH s.mem c y x
  | .intraDc c => dcSample s.mem c
  | .intraTm c => predictTm s.mem c y x

/-- `exec` is the command's effect in the frame of R205. -/
theorem exec_eq (i : Instr) (s : State) : exec i s = runCommand i (effectOf i) s := by
  cases i <;> rfl

/-! ### The effect -/

@[simp] theorem firstPass_mem (c : InterCmd) (s : State) : (firstPass c s).mem = s.mem := by
  unfold firstPass
  split <;> rfl

/-- The effect of a command on memory is the store loop over its block. -/
theorem effectOf_mem (i : Instr) (s : State) : (effectOf i s).mem = (storeBlock (blockOf i) (samplesOf i s) s).mem := by
  have hl : ∀ (c : InterCmd) (t : State), (lastPass c t).mem = t.mem := by
    intro c t
    unfold lastPass
    split <;> rfl
  cases i with
  | interPut c => simp only [effectOf, interPutEffect, hl, storeBlock_mem, firstPass_mem]; rfl
  | interAvg c => simp only [effectOf, interAvgEffect, hl, storeBlock_mem, firstPass_mem]; rfl
  | intraV c => rfl
  | intraH c => rfl
  | intraDc c => rfl
  | intraTm c => rfl

/-- The effect of a command leaves every register but `TMP` alone. -/
theorem effectOf_frame (i : Instr) (s : State) :
    SameButBlock s (effectOf i s) ∧ (effectOf i s).busy = s.busy ∧ (effectOf i s).done = s.done := by
  have hinter : ∀ (c : InterCmd) (P : Nat → Nat → Sample),
      SameButBlock s (lastPass c (storeBlock (interBlock c) P (firstPass c s))) ∧
      (lastPass c (storeBlock (interBlock c) P (firstPass c s))).busy = s.busy ∧
      (lastPass c (storeBlock (interBlock c) P (firstPass c s))).done = s.done := by
    intro c P
    unfold lastPass firstPass
    cases twoPass c <;> exact ⟨⟨rfl, rfl, rfl, rfl, rfl, rfl, rfl, rfl, rfl⟩, rfl, rfl⟩
  cases i with
  | interPut c => exact hinter c _
  | interAvg c => exact hinter c _
  | intraV c => exact ⟨⟨rfl, rfl, rfl, rfl, rfl, rfl, rfl, rfl, rfl⟩, rfl, rfl⟩
  | intraH c => exact ⟨⟨rfl, rfl, rfl, rfl, rfl, rfl, rfl, rfl, rfl⟩, rfl, rfl⟩
  | intraDc c => exact ⟨⟨rfl, rfl, rfl, rfl, rfl, rfl, rfl, rfl, rfl⟩, rfl, rfl⟩
  | intraTm c => exact ⟨⟨rfl, rfl, rfl, rfl, rfl, rfl, rfl, rfl, rfl⟩, rfl, rfl⟩

/-- `TMP` after a command: no row, if there was none before (R33). -/
theorem effectOf_tmp (i : Instr) (s : State) (h : s.tmp.rows = []) : (effectOf i s).tmp.rows = [] := by
  have hinter : ∀ (c : InterCmd) (P : Nat → Nat → Sample),
      (lastPass c (storeBlock (interBlock c) P (firstPass c s))).tmp.rows = [] := by
    intro c P
    unfold lastPass firstPass
    cases twoPass c
    · exact h
    · rfl
  cases i with
  | interPut c => exact hinter c _
  | interAvg c => exact hinter c _
  | intraV c => exact h
  | intraH c => exact h
  | intraDc c => exact h
  | intraTm c => exact h

/-! ### `exec` -/

/-- A command whose checks pass and whose contract is kept completes (R205, R207). -/
theorem exec_of_pass {i : Instr} {s : State} (hc : ChecksPass i) (hk : ContractKept i s) :
    exec i s = .next (complete (effectOf i s)) := by
  rw [exec_eq, runCommand_of_pass hc hk]

/-- A failing check ends the command with its code and nothing else (R231). -/
theorem exec_of_fail {i : Instr} {e : ErrorKind} (h : firstFailingCheck i = some e) (s : State) :
    exec i s = .next (errorEntry e s) := by
  rw [exec_eq]
  unfold runCommand
  rw [h]

/-- Everything `exec` can do that answers a next state. -/
theorem exec_next {i : Instr} {s t : State} (h : exec i s = .next t) :
    (∃ e, firstFailingCheck i = some e ∧ t = errorEntry e s) ∨
    (ChecksPass i ∧ ContractKept i s ∧ t = complete (effectOf i s)) :=
  runCommand_next (exec_eq i s ▸ h)

/-- `DST_STRIDE >= W` in a command that passes (R223). -/
theorem stride_of_pass {i : Instr} (h : ChecksPass i) : (blockOf i).w ≤ (blockOf i).stride := by
  obtain ⟨_, _, h⟩ := h
  cases i with
  | interPut c => exact h.1
  | interAvg c => exact h.1
  | intraV c => exact h.1
  | intraH c => exact h.1
  | intraDc c => exact h
  | intraTm c => exact h.1

/-- A completed command has written exactly its block, with its samples (R56, R61). -/
theorem effectOf_written {i : Instr} (hc : ChecksPass i) (s : State) :
    BlockWritten (blockOf i) (samplesOf i s) s (complete (effectOf i s)) := by
  have h := storeBlock_written (blockOf i) (samplesOf i s) s (stride_of_pass hc)
  unfold BlockWritten at h ⊢
  rwa [complete_mem, effectOf_mem]

/-- The predictor is the general one whatever the classes (R139, R140). -/
theorem predictor_eq_general (c : InterCmd) (s : State) (y x : Nat) (hy : y < c.h) (hx : x < c.w) :
    predictor c (firstPass c s) y x = generalPredictor (refSample s.mem c) c y x := by
  have hh : ∀ r k : Int, horizontal s.mem c r k = generalHorizontal (refSample s.mem c) c r k := by
    intro r k
    exact filt_eq_k8 c.stepX c.fx _ k
  have hv : ∀ (col : Int → Sample) (p : Int), vertical c col p = k8 col p c.fy := by
    intro col p
    exact filt_eq_k8 c.stepY c.fy col p
  have hxcopy : classX c = .copy → ∀ r k : Int, generalHorizontal (refSample s.mem c) c r k = refSample s.mem c r k := by
    intro h r k
    rw [← hh]
    unfold horizontal
    rw [h]
    rfl
  have hycopy : classY c = .copy → ∀ (col : Int → Sample) (p : Int), k8 col p c.fy = col p := by
    intro h col p
    rw [← hv]
    unfold vertical
    rw [h]
    rfl
  have htmp : classX c ≠ .copy → classY c ≠ .copy →
      vertical c (fun r => (firstPass c s).tmp.read (r + ((classY c).before : Int)).toNat x) y =
        k8 (fun r => generalHorizontal (refSample s.mem c) c r x) y c.fy := by
    intro h1 h2
    have ht : twoPass c = true := by simp [twoPass, h1, h2]
    have hread : ∀ r : Int, -((classY c).before : Int) ≤ r → r < (c.h : Int) + ((classY c).after : Int) →
        (firstPass c s).tmp.read (r + ((classY c).before : Int)).toNat x = generalHorizontal (refSample s.mem c) c r x := by
      intro r hr1 hr2
      unfold firstPass
      rw [if_pos ht, fillTmp_tmp, tmp_read_rows s.mem c _ _ x (by omega) hx, ← hh]
      congr 1
      omega
    rw [← hv]
    unfold vertical filt
    cases hcy : classY c with
    | copy => exact absurd hcy h2
    | bilinear =>
      rw [hcy] at hread
      simp only [AxisClass.before, AxisClass.after] at hread
      simp only [AxisClass.before]
      rw [hread y (by omega) (by omega), hread (y + 1) (by omega) (by omega)]
    | full =>
      rw [hcy] at hread
      simp only [AxisClass.before, AxisClass.after] at hread
      simp only [AxisClass.before, k8]
      rw [hread (y - 3) (by omega) (by omega), hread (y - 2) (by omega) (by omega), hread (y - 1) (by omega) (by omega),
        hread y (by omega) (by omega), hread (y + 1) (by omega) (by omega), hread (y + 2) (by omega) (by omega),
        hread (y + 3) (by omega) (by omega), hread (y + 4) (by omega) (by omega)]
  unfold predictor generalPredictor
  rw [firstPass_mem]
  cases h1 : classX c <;> cases h2 : classY c <;> simp only
  · rw [hycopy h2, hxcopy h1]
  · rw [hv]
    simp only [hxcopy h1]
  · rw [hv]
    simp only [hxcopy h1]
  · rw [hycopy h2, hh]
  · have := htmp (by simp [h1]) (by simp [h2])
    rwa [h2] at this
  · have := htmp (by simp [h1]) (by simp [h2])
    rwa [h2] at this
  · rw [hycopy h2, hh]
  · have := htmp (by simp [h1]) (by simp [h2])
    rwa [h2] at this
  · have := htmp (by simp [h1]) (by simp [h2])
    rwa [h2] at this

/-! ### What every command's outcome says -/

/-- The frame of a completed command (R207). -/
theorem completed_effect (i : Instr) (s : State) : Completed s (complete (effectOf i s)) :=
  ⟨rfl, rfl, (effectOf_frame i s).1⟩

/-- A command that is not two-pass leaves `TMP` alone (R138). -/
theorem lastPass_tmpKept (c : InterCmd) (P : Nat → Nat → Sample) (s : State) (h : classX c = .copy ∨ classY c = .copy) :
    TmpKept s (lastPass c (storeBlock (interBlock c) P (firstPass c s))) := by
  have ht : twoPass c = false := by rcases h with h | h <;> simp [twoPass, h]
  unfold lastPass firstPass TmpKept
  rw [ht]
  exact ⟨rfl, rfl⟩

/-- Memory after a command that answered: untouched where a check failed (R231), else its block (R61). -/
theorem exec_mem_cases {i : Instr} {s t : State} (h : exec i s = .next t) :
    (¬ ChecksPass i ∧ t.mem = s.mem) ∨
    (ChecksPass i ∧ ContractKept i s ∧ BlockWritten (blockOf i) (samplesOf i s) s t) := by
  rcases exec_next h with ⟨e, he, rfl⟩ | ⟨hc, hk, rfl⟩
  · refine .inl ⟨fun hc => ?_, rfl⟩
    rw [(firstFailingCheck_none_iff i).mpr hc] at he
    cases he
  · exact .inr ⟨hc, hk, effectOf_written hc s⟩

/-- Whether a command answers does not depend on the content of memory (R206). -/
theorem exec_next_other_mem {i : Instr} {s t : State} (h : exec i s = .next t) (m : Memory) :
    ∃ u, exec i { s with mem := m } = .next u := by
  rcases exec_next h with ⟨e, he, _⟩ | ⟨hc, hk, _⟩
  · exact ⟨_, exec_of_fail he _⟩
  · exact ⟨_, exec_of_pass hc hk⟩

/-- `exec` is the error entry of a code exactly when that check is the first that fails (R230, R231). -/
theorem exec_errorEntry_iff (i : Instr) (s : State) (e : ErrorKind) :
    exec i s = .next (errorEntry e s) ↔ firstFailingCheck i = some e := by
  refine ⟨fun h => ?_, fun h => exec_of_fail h s⟩
  rcases exec_next h with ⟨e', he, ht⟩ | ⟨_, _, ht⟩
  · have hr := congrArg State.errRecord ht
    simp only [errorEntry_errRecord, List.append_cancel_left_eq, List.cons.injEq, and_true] at hr
    have : e = e' := by
      revert hr
      cases e <;> cases e' <;> decide
    rw [this]
    exact he
  · have hr := congrArg State.errRecord ht
    rw [complete_errRecord, (effectOf_frame i s).1.2.2.2.2.2.2.2.2, errorEntry_errRecord] at hr
    simp at hr

end Sys2Proof.Machine
end

