-- ==== Sys2Proof/Laws/Control.lean ====
section
/-! SUPPORT. What each host operation can do, and one induction over every step: a property that the engine's step, the
host's operations and reset keep is kept by `step` (R205). -/

namespace Sys2Proof.Machine

/-! ### Host operations -/

/-- A `START` is accepted, or leaves no trace (R202, R209). -/
theorem doStart_cases (s : State) :
    (s.busy = false ∧ s.err = false ∧
      doStart s = { s with cmd := s.desc, busy := true, done := false, inFlight := s.inFlight ++ [s.desc] }) ∨
    ((s.busy = true ∨ s.err = true) ∧ doStart s = s) := by
  unfold doStart
  cases s.busy <;> cases s.err <;> simp

/-- A `CLR` clears the three fields, or is ignored (R203). -/
theorem doClr_cases (s : State) :
    (s.busy = false ∧ doClr s = { s with done := false, err := false, errCode := 0 }) ∨ (s.busy = true ∧ doClr s = s) := by
  unfold doClr
  cases s.busy <;> simp

/-- Everything `RegWrite` can do: a `DESC` word, the two triggers in their order, or nothing (R200). -/
theorem regWrite_cases (i : Nat) (v : Word) (s : State) :
    (∃ h : i < 16, regWrite i v s = { s with desc := s.desc.set i v }) ∨
    (i = 16 ∧ ∃ clr start : Bool,
      regWrite i v s = (if start then doStart (if clr then doClr s else s) else if clr then doClr s else s)) ∨
    (17 ≤ i ∧ regWrite i v s = s) := by
  unfold regWrite
  by_cases h : i < 16
  · exact .inl ⟨h, by simp [h]⟩
  · by_cases h16 : i = 16
    · refine .inr (.inl ⟨h16, decide (field v 1 1 = 1), decide (field v 0 0 = 1), ?_⟩)
      simp [h16, writeCtrl]
    · exact .inr (.inr ⟨by omega, by simp [h, h16]⟩)

/-- What `RegWrite` never touches (R200, R203). -/
theorem regWrite_frame (i : Nat) (v : Word) (s : State) :
    (regWrite i v s).mem = s.mem ∧ (regWrite i v s).tmp = s.tmp ∧ (regWrite i v s).regions = s.regions ∧
    (regWrite i v s).agenda = s.agenda ∧ (regWrite i v s).reply = s.reply ∧ (regWrite i v s).errRecord = s.errRecord ∧
    (regWrite i v s).freeCount = s.freeCount := by
  have hstart : ∀ t : State, (doStart t).mem = t.mem ∧ (doStart t).tmp = t.tmp ∧ (doStart t).regions = t.regions ∧
      (doStart t).agenda = t.agenda ∧ (doStart t).reply = t.reply ∧ (doStart t).errRecord = t.errRecord ∧
      (doStart t).freeCount = t.freeCount := by
    intro t
    rcases doStart_cases t with ⟨_, _, h⟩ | ⟨_, h⟩ <;> rw [h] <;> exact ⟨rfl, rfl, rfl, rfl, rfl, rfl, rfl⟩
  have hclr : ∀ t : State, (doClr t).mem = t.mem ∧ (doClr t).tmp = t.tmp ∧ (doClr t).regions = t.regions ∧
      (doClr t).agenda = t.agenda ∧ (doClr t).reply = t.reply ∧ (doClr t).errRecord = t.errRecord ∧
      (doClr t).freeCount = t.freeCount := by
    intro t
    rcases doClr_cases t with ⟨_, h⟩ | ⟨_, h⟩ <;> rw [h] <;> exact ⟨rfl, rfl, rfl, rfl, rfl, rfl, rfl⟩
  rcases regWrite_cases i v s with ⟨_, h⟩ | ⟨_, clr, start, h⟩ | ⟨_, h⟩ <;> rw [h]
  · exact ⟨rfl, rfl, rfl, rfl, rfl, rfl, rfl⟩
  · cases clr <;> cases start <;> simp [hstart, hclr]
  · exact ⟨rfl, rfl, rfl, rfl, rfl, rfl, rfl⟩

/-- A runnable latch decodes to a command that passes every check. -/
theorem runnable_some {d : Descriptor} {i : Instr} (h : runnable d = some i) : decode d = .ok i ∧ ChecksPass i := by
  unfold runnable at h
  split at h
  · rename_i j hj
    split at h
    · rename_i hf
      injection h with h
      subst h
      exact ⟨hj, (firstFailingCheck_none_iff j).mp hf⟩
    · cases h
  · cases h

theorem runnable_of_pass {d : Descriptor} {i : Instr} (hd : decode d = .ok i) (hc : ChecksPass i) : runnable d = some i := by
  simp [runnable, hd, (firstFailingCheck_none_iff i).mpr hc]

/-- What the race test of a read set finds (R70, R256). -/
theorem readInFlight_iff (s : State) (a : Nat) :
    readInFlight s a = true ↔ ∃ d ∈ s.inFlight, ∃ i, runnable d = some i ∧ InReadSet i (a : Int) := by
  unfold readInFlight
  simp only [List.any_eq_true, Option.any_eq_true, inReadSet_iff]

/-- What the race test of a write set finds (R70, R257). -/
theorem writtenInFlight_iff (s : State) (a : Nat) :
    writtenInFlight s a = true ↔ ∃ d ∈ s.inFlight, ∃ i, runnable d = some i ∧ InWriteSet (blockOf i) (a : Int) := by
  unfold writtenInFlight
  simp only [List.any_eq_true, Option.any_eq_true, writeSet_covers_iff]

/-- `Valid` implies the 32-bit address space (R50). -/
theorem valid_bounds {s : State} {a : Int} (h : s.valid a = true) : 0 ≤ a ∧ a < 4294967296 := by
  unfold State.valid at h
  simp only [Bool.and_eq_true] at h
  exact ⟨of_decide_eq_true h.1.1, of_decide_eq_true h.1.2⟩

/-- Everything the reset input can do: clear the registers, and where it cuts off a command that passes its checks, leave its
block unspecified (R250, R252). -/
theorem resetInput_cases (s : State) :
    ((s.busy = false ∨ runnable s.cmd = none) ∧ resetInput s = resetRegisters s) ∨
    (s.busy = true ∧ ∃ i, runnable s.cmd = some i ∧ resetInput s = resetRegisters (abandonWrites i s)) := by
  unfold resetInput
  cases s.busy with
  | false => exact .inl ⟨.inl rfl, rfl⟩
  | true =>
    cases runnable s.cmd with
    | none => exact .inl ⟨.inr rfl, rfl⟩
    | some i => exact .inr ⟨rfl, i, rfl, rfl⟩

/-! ### One induction over every step -/

/-- A property kept by the engine's step on a decoded latch and on an illegal one, by every host operation and by reset is
kept by every step. The agenda itself must not matter to it. -/
theorem step_keeps (P : State → Prop)
    (hAgenda : ∀ s l, P s → P { s with agenda := l })
    (hExec : ∀ s t i, P s → s.busy = true → decode s.cmd = .ok i → exec i s = .next t → P t)
    (hIllegal : ∀ s, P s → s.busy = true → P (errorEntry .illegal s))
    (hWrite : ∀ s i v, P s → P (regWrite i v s))
    (hRead : ∀ s i, P s → P (hostRead i s))
    (hReply : ∀ s r, P s → P { s with reply := r })
    (hMem : ∀ s (a : Nat) v, P s → s.valid a = true → P { s with mem := Memory.write s.mem a v })
    (hReset : ∀ s, P s → P (resetInput s))
    (s t : State) (hs : P s) (h : step s = .next t) : P t := by
  have hturn : ∀ s, P s → engineTurn s = .next t → P t := by
    intro s hs h
    unfold engineTurn at h
    split at h
    · rename_i hb
      unfold execLatch at h
      split at h
      · rename_i i hi
        exact hExec s t i hs hb hi h
      · injection h with h
        exact h ▸ hIllegal s hs hb
    · injection h with h
      exact h ▸ hs
  unfold step at h
  split at h
  · exact hturn s hs h
  · rename_i a rest _
    have hs := hAgenda s rest hs
    generalize ({ s with agenda := rest } : State) = u at hs h
    cases a with
    | regWrite i v =>
      injection h with h
      exact h ▸ hWrite u i v hs
    | regRead i =>
      injection h with h
      exact h ▸ hRead u i hs
    | wait =>
      simp only [perform] at h
      split at h
      · injection h with h
        exact h ▸ hRead u 17 hs
      · exact hturn _ (hAgenda _ (.wait :: u.agenda) (hRead u 17 hs)) h
    | memRead a =>
      simp only [perform, agentRead] at h
      split at h
      · cases h
      · split at h
        · cases h
        · injection h with h
          exact h ▸ hReply u _ hs
    | memWrite a v =>
      simp only [perform, agentWrite] at h
      split at h
      · cases h
      · rename_i hv
        split at h
        · cases h
        · injection h with h
          exact h ▸ hMem u a v hs (by simpa using hv)
    | reset =>
      injection h with h
      exact h ▸ hReset u hs
    | engine => exact hturn u hs h

end Sys2Proof.Machine
end

