-- ==== Sys2Proof/Laws/Decode.lean ====
section
/-! SUPPORT. The fields of a word against the words built from fields: halves, coefficients and whole words (R9, R87, R103). -/

namespace Sys2Proof

theorem field_halves_low {low high : Nat} (h : low < 65536) : field (halves low high) 15 0 = low := by
  simp [field, halves]
  omega

theorem field_halves_high {low high : Nat} (hl : low < 65536) (hh : high < 65536) : field (halves low high) 31 16 = high := by
  simp [field, halves]
  omega

/-- A word is its two halves. -/
theorem halves_fields (w : Word) : halves (field w 15 0) (field w 31 16) = w := by
  apply BitVec.eq_of_toNat_eq
  have := w.isLt
  simp [field, halves]
  omega

theorem field_low_lt (w : Word) : field w 15 0 < 65536 := by
  simp [field]
  omega

theorem field_high_lt (w : Word) : field w 31 16 < 65536 := by
  simp [field]
  omega

theorem coeffField_lt (t : Int) : coeffField t < 65536 := by
  unfold coeffField
  omega

/-- A 16-bit coefficient survives its field (R87, R103). -/
theorem sext16_coeffField {t : Int} (h : coeffWellFormed t = true) : sext16 (coeffField t) = t := by
  simp [coeffWellFormed] at h
  unfold sext16 coeffField
  split <;> omega

/-- A 16-bit field survives its coefficient. -/
theorem coeffField_sext16 {n : Nat} (h : n < 65536) : coeffField (sext16 n) = n := by
  unfold sext16 coeffField
  split <;> omega

/-- What a field reads as is a coefficient (R88). -/
theorem coeffWellFormed_sext16 {n : Nat} (h : n < 65536) : coeffWellFormed (sext16 n) = true := by
  simp only [coeffWellFormed, Bool.and_eq_true, decide_eq_true_iff]
  unfold sext16
  split <;> omega

/-- A kernel survives its four words (R87, R103). -/
theorem kernelOfWords_kernelWord {f : Kernel} (h : f.wellFormed = true) :
    kernelOfWords (kernelWord f.t0 f.t1) (kernelWord f.t2 f.t3) (kernelWord f.t4 f.t5) (kernelWord f.t6 f.t7) = f := by
  simp only [Kernel.wellFormed, Kernel.taps, List.all_cons, List.all_nil, Bool.and_true, Bool.and_eq_true] at h
  obtain ⟨h0, h1, h2, h3, h4, h5, h6, h7⟩ := h
  simp only [kernelOfWords, kernelWord, field_halves_low (coeffField_lt _), field_halves_high (coeffField_lt _) (coeffField_lt _),
    sext16_coeffField, h0, h1, h2, h3, h4, h5, h6, h7]

/-- Four kernel words survive their kernel. -/
theorem kernelWord_kernelOfWords (w0 w1 w2 w3 : Word) :
    kernelWord (kernelOfWords w0 w1 w2 w3).t0 (kernelOfWords w0 w1 w2 w3).t1 = w0 ∧
    kernelWord (kernelOfWords w0 w1 w2 w3).t2 (kernelOfWords w0 w1 w2 w3).t3 = w1 ∧
    kernelWord (kernelOfWords w0 w1 w2 w3).t4 (kernelOfWords w0 w1 w2 w3).t5 = w2 ∧
    kernelWord (kernelOfWords w0 w1 w2 w3).t6 (kernelOfWords w0 w1 w2 w3).t7 = w3 := by
  simp only [kernelOfWords, kernelWord, coeffField_sext16 (field_low_lt _), coeffField_sext16 (field_high_lt _), halves_fields,
    and_self]

/-! ### The fields of an encoded command -/

theorem interFieldsOf_encodeInter (blend : Nat) {c : InterCmd} (h : c.wellFormed = true) :
    interFieldsOf (encodeInter blend c) = c := by
  simp only [InterCmd.wellFormed, Bool.and_eq_true, decide_eq_true_iff] at h
  obtain ⟨⟨⟨⟨⟨⟨⟨⟨⟨h1, h2⟩, h3⟩, h4⟩, h5⟩, h6⟩, h7⟩, h8⟩, h9⟩, h10⟩ := h
  have k1 := kernelOfWords_kernelWord h9
  have k2 := kernelOfWords_kernelWord h10
  simp [interFieldsOf, encodeInter, field_halves_low, field_halves_high, *]
  cases c
  simp_all

/-- A one-bit field that holds a Bool gives it back. -/
theorem flag_eq (b : Bool) (n : Nat) (h : n = b.toNat) : (n == 1) = b := by
  subst h
  cases b <;> rfl

theorem intraFieldsOf_encodeIntra {m : Nat} (hm : m ≤ 3) {c : IntraCmd} (h : c.wellFormed = true) :
    intraFieldsOf (encodeIntra m c) = c := by
  simp only [IntraCmd.wellFormed, Bool.and_eq_true, decide_eq_true_iff] at h
  obtain ⟨⟨⟨⟨⟨⟨h1, h2⟩, h3⟩, h4⟩, h5⟩, h6⟩, h7⟩ := h
  have ha : c.hasAbove.toNat ≤ 1 := Bool.toNat_le c.hasAbove
  have hl : c.hasLeft.toNat ≤ 1 := Bool.toNat_le c.hasLeft
  have e1 : (field (encodeIntra m c)[0] 7 7 == 1) = c.hasAbove := by
    apply flag_eq
    simp [encodeIntra, field]
    omega
  have e2 : (field (encodeIntra m c)[0] 8 8 == 1) = c.hasLeft := by
    apply flag_eq
    simp [encodeIntra, field]
    omega
  have e3 : field (encodeIntra m c)[0] 23 16 = c.corner := by
    simp [encodeIntra, field]
    omega
  unfold intraFieldsOf
  rw [e1, e2, e3]
  simp [encodeIntra, field_halves_low, field_halves_high, *]
  cases c
  simp_all [Nat.mod_eq_of_lt]

end Sys2Proof
end

