-- ==== Sys2Proof/Laws/PerInstr.lean ====
section
/-! SUPPORT. The family `ControlWord`: the fixed bits of the words a command encodes to, row by row as the opcode table
lists them (R91). -/

namespace Sys2Proof.Laws.ControlWord

/-- Bits 6:0 of a row's `match` (R91). -/
def rowBits : Instr → Nat
  | .interPut _ => 1
  | .interAvg _ => 65
  | .intraV _ => 2
  | .intraH _ => 18
  | .intraDc _ => 34
  | .intraTm _ => 50

/-- The fixed bits of the row, and the zero word 7 that every row has (R86, R91). -/
def Statement (i : Instr) : Prop :=
  i.wellFormed = true →
    field (encode i)[0] 6 0 = rowBits i ∧ field (encode i)[0] 15 9 = 0 ∧ field (encode i)[0] 31 24 = 0 ∧ (encode i)[7] = 0

theorem inter_words (blend : Nat) (h : blend ≤ 1) (c : InterCmd) :
    field (encodeInter blend c)[0] 6 0 = 1 + blend * 64 ∧ field (encodeInter blend c)[0] 15 9 = 0 ∧
      field (encodeInter blend c)[0] 31 24 = 0 ∧ (encodeInter blend c)[7] = 0 := by
  simp [encodeInter, field]
  omega

theorem intra_words (m : Nat) (hm : m ≤ 3) (c : IntraCmd) (h : c.wellFormed = true) :
    field (encodeIntra m c)[0] 6 0 = 2 + m * 16 ∧ field (encodeIntra m c)[0] 15 9 = 0 ∧
      field (encodeIntra m c)[0] 31 24 = 0 ∧ (encodeIntra m c)[7] = 0 := by
  have ha : c.hasAbove.toNat ≤ 1 := Bool.toNat_le c.hasAbove
  have hl : c.hasLeft.toNat ≤ 1 := Bool.toNat_le c.hasLeft
  have hc : c.corner < 256 := by
    simp [IntraCmd.wellFormed] at h
    omega
  simp [encodeIntra, field]
  omega

theorem interPut (c : InterCmd) : Statement (.interPut c) := fun _ => inter_words 0 (by omega) c

theorem interAvg (c : InterCmd) : Statement (.interAvg c) := fun _ => inter_words 1 (by omega) c

theorem intraV (c : IntraCmd) : Statement (.intraV c) := fun h => intra_words 0 (by omega) c h

theorem intraH (c : IntraCmd) : Statement (.intraH c) := fun h => intra_words 1 (by omega) c h

theorem intraDc (c : IntraCmd) : Statement (.intraDc c) := fun h => intra_words 2 (by omega) c h

theorem intraTm (c : IntraCmd) : Statement (.intraTm c) := fun h => intra_words 3 (by omega) c h

end Sys2Proof.Laws.ControlWord
end

