-- ==== Sys2Proof/Laws/Protocol.lean ====
section
/-! SUPPORT. Runs of the host's script (R102, R211): one step taken off a run, and the sixteen writes of a descriptor. -/

namespace Sys2Proof.Machine

/-- A run of `n + 1` steps is a step and a run of `n`. -/
theorem run_succ {s t : State} (h : step s = .next t) (n : Nat) :
    Host.Core.run Sys2Proof.core (n + 1) s = Host.Core.run Sys2Proof.core n t := by
  simp [Host.Core.run, Sys2Proof.core, h]

/-- A scheduled `DESC` write. -/
theorem step_descWrite {s : State} {i : Nat} {v : Word} {rest : List Action} (h : s.agenda = .regWrite i v :: rest)
    (hi : i < 16) : step s = .next { s with agenda := rest, desc := s.desc.set i v } := by
  simp [step, h, perform, regWrite, hi]

/-- The last `k` of the sixteen writes, over a `DESC` that already holds the earlier words. -/
theorem run_lastWrites (d : Descriptor) (rest : List Action) (n : Nat) : ∀ (k : Nat) (_ : k ≤ 16) (s : State),
    s.agenda = ((List.finRange 16).drop (16 - k)).map (fun j => Action.regWrite j.val d[j]) ++ rest →
    (∀ (j : Nat) (hj : j < 16), j < 16 - k → s.desc[j] = d[j]) →
    Host.Core.run Sys2Proof.core (k + n) s = Host.Core.run Sys2Proof.core n { s with agenda := rest, desc := d } := by
  intro k
  induction k with
  | zero =>
    intro _ s ha hd
    have hdesc : s.desc = d := by
      apply Vector.ext
      intro i hi
      exact hd i hi (by omega)
    rw [List.drop_of_length_le (by simp)] at ha
    simp only [List.map_nil, List.nil_append] at ha
    rw [Nat.zero_add, ← hdesc, ← ha]
  | succ k ih =>
    intro hk s ha hd
    have hlt : 16 - (k + 1) < (List.finRange 16).length := by simp; omega
    rw [List.drop_eq_getElem_cons hlt] at ha
    simp only [List.getElem_finRange, List.map_cons, List.cons_append] at ha
    rw [show k + 1 + n = (k + n) + 1 by omega, run_succ (step_descWrite ha (by simp; omega)), ih (by omega)]
    · show (List.map _ (List.drop (16 - (k + 1) + 1) _) ++ rest : List _) = _
      rw [show 16 - (k + 1) + 1 = 16 - k by omega]
    · intro j hj hlt'
      simp only [Vector.getElem_set]
      split
      · rename_i h
        simp only [Fin.val_cast] at h
        subst h
        rfl
      · rename_i h
        simp only [Fin.val_cast] at h
        exact hd j hj (by omega)

/-- The `cmd` line of a script: after sixteen steps `DESC` holds the words and nothing else has changed (R102). -/
theorem run_writeDescriptor (d : Descriptor) (rest : List Action) (n : Nat) (s : State)
    (h : s.agenda = writeDescriptor d ++ rest) :
    Host.Core.run Sys2Proof.core (16 + n) s = Host.Core.run Sys2Proof.core n { s with agenda := rest, desc := d } :=
  run_lastWrites d rest n 16 (le_refl _) s (by simpa [writeDescriptor] using h) (fun j hj hlt => by omega)

end Sys2Proof.Machine
end

