-- ==== Sys2Proof/Laws/Reads.lean ====
section
/-! SUPPORT. The samples a command stores depend on no byte outside its read set (R56, R62 to R64). -/

namespace Sys2Proof.Machine

/-- Two memories that agree on the read set of a command. -/
def AgreeOnReads (i : Instr) (m n : Memory) : Prop := ∀ a : Nat, InReadSet i (a : Int) → Memory.read m a = Memory.read n a

/-- A filtered value depends on its line from `p - b` to `p + a` alone (R132, R133). -/
theorem filt_congr (cls : AxisClass) (f : Kernel) (l1 l2 : Int → Sample) (p : Int)
    (h : ∀ k : Int, p - (cls.before : Int) ≤ k → k ≤ p + (cls.after : Int) → l1 k = l2 k) :
    filt cls f l1 p = filt cls f l2 p := by
  cases cls with
  | copy => exact h p (by simp [AxisClass.before]) (by simp [AxisClass.after])
  | bilinear =>
    simp only [AxisClass.before, AxisClass.after] at h
    unfold filt
    rw [h p (by omega) (by omega), h (p + 1) (by omega) (by omega)]
  | full =>
    simp only [AxisClass.before, AxisClass.after] at h
    unfold filt k8
    rw [h (p - 3) (by omega) (by omega), h (p - 2) (by omega) (by omega), h (p - 1) (by omega) (by omega),
      h p (by omega) (by omega), h (p + 1) (by omega) (by omega), h (p + 2) (by omega) (by omega),
      h (p + 3) (by omega) (by omega), h (p + 4) (by omega) (by omega)]

/-- The predictor by class, with `TMP` read back as what the first pass wrote there (R137, R139). -/
theorem predictor_eq_passes (c : InterCmd) (s : State) (y x : Nat) (hy : y < c.h) (hx : x < c.w) :
    predictor c (firstPass c s) y x = vertical c (fun r => horizontal s.mem c r x) y := by
  rw [predictor_eq_general c s y x hy hx]
  unfold generalPredictor generalHorizontal vertical horizontal classX classY
  rw [filt_eq_k8]
  simp only [filt_eq_k8]

theorem predictor_congr (c : InterCmd) (s t : State) (y x : Nat) (hy : y < c.h) (hx : x < c.w)
    (h : ∀ r k : Int, InWindow c (addr c.srcAddr c.srcStride r k) → refSample s.mem c r k = refSample t.mem c r k) :
    predictor c (firstPass c s) y x = predictor c (firstPass c t) y x := by
  rw [predictor_eq_passes c s y x hy hx, predictor_eq_passes c t y x hy hx]
  apply filt_congr
  intro r hr1 hr2
  apply filt_congr
  intro k hk1 hk2
  exact h r k ⟨r, k, by omega, by omega, by omega, by omega, rfl⟩

/-- The stored samples depend on the read set alone (R8). -/
theorem samplesOf_congr (i : Instr) (hc : ChecksPass i) (s t : State) (h : AgreeOnReads i s.mem t.mem) (y x : Nat)
    (hy : y < (blockOf i).h) (hx : x < (blockOf i).w) : samplesOf i s y x = samplesOf i t y x := by
  have hread : ∀ a : Int, InReadSet i a → 0 ≤ a → memRead s.mem a = memRead t.mem a := by
    intro a ha h0
    unfold memRead
    apply h
    rwa [Int.toNat_of_nonneg h0]
  have hwindow : ∀ c : InterCmd, (∀ a, InWindow c a → InReadSet i a) → (∀ a, InWindow c a → 0 ≤ a) → ∀ r k : Int,
      InWindow c (addr c.srcAddr c.srcStride r k) → refSample s.mem c r k = refSample t.mem c r k := by
    intro c hin h0 r k hw
    exact hread _ (hin _ hw) (h0 _ hw)
  have habove : ∀ c : IntraCmd, (∀ a, InAbove c a → InReadSet i a) → ∀ k < c.w, aboveSample s.mem c k = aboveSample t.mem c k := by
    intro c hin k hk
    exact hread _ (hin _ ⟨k, hk, rfl⟩) (by omega)
  have hleft : ∀ c : IntraCmd, (∀ a, InLeft c a → InReadSet i a) → ∀ k < c.h, leftSample s.mem c k = leftSample t.mem c k := by
    intro c hin k hk
    exact hread _ (hin _ ⟨k, hk, rfl⟩) (by omega)
  obtain ⟨_, haddr, _⟩ := hc
  cases i with
  | interPut c =>
    exact predictor_congr c s t y x hy hx (hwindow c (fun a ha => ha) fun a ha => (haddr a (.inl ha)).1)
  | interAvg c =>
    have hp := predictor_congr c s t y x hy hx (hwindow c (fun a ha => .inl ha) fun a ha => (haddr a (.inl ha)).1)
    have hd : dstSample s.mem (interBlock c) y x = dstSample t.mem (interBlock c) y x := by
      refine hread _ (.inr ⟨y, x, hy, hx, rfl⟩) ?_
      rw [addr_natCast]
      omega
    simp only [samplesOf, hp, hd]
  | intraV c => exact habove c (fun a ha => ha) x hx
  | intraH c => exact hleft c (fun a ha => ha) y hy
  | intraDc c =>
    have hA : c.hasAbove = true → aboveSum s.mem c = aboveSum t.mem c := by
      intro hh
      unfold aboveSum
      congr 1
      apply List.map_congr_left
      intro k hk
      rw [habove c (fun a ha => .inl ⟨hh, ha⟩) k (List.mem_range.mp hk)]
    have hL : c.hasLeft = true → leftSum s.mem c = leftSum t.mem c := by
      intro hh
      unfold leftSum
      congr 1
      apply List.map_congr_left
      intro k hk
      rw [hleft c (fun a ha => .inr ⟨hh, ha⟩) k (List.mem_range.mp hk)]
    simp only [samplesOf, dcSample, dcValue]
    cases h1 : c.hasAbove <;> cases h2 : c.hasLeft <;> simp only
    · rw [hL h2]
    · rw [hA h1]
    · rw [hA h1, hL h2]
  | intraTm c =>
    simp only [samplesOf, predictTm]
    rw [habove c (fun a ha => .inl ha) x hx, hleft c (fun a ha => .inr ha) y hy]

/-- The memory a command leaves depends on the memory it finds, not on any register (R8, R34). -/
theorem effectOf_mem_congr {i : Instr} (hc : ChecksPass i) {s u : State} (h : u.mem = s.mem) :
    (effectOf i u).mem = (effectOf i s).mem := by
  rw [effectOf_mem, effectOf_mem, storeBlock_mem, storeBlock_mem, h]
  congr 1
  apply cells_congr
  intro y x hy hx
  exact samplesOf_congr i hc u s (fun a _ => by rw [h]) y x hy hx

end Sys2Proof.Machine
end

