-- ==== Sys2Proof/Tests/Slice0.lean ====
section
/-! SUPPORT. The model's own tests: words written out from the spec's encodings, ill-formed terms, one-step vectors of the
spec, and for every obligation with hypotheses a concrete state that meets them. Each expected value is the spec's. -/

namespace Sys2Proof.Tests

open Sys2Proof Sys2Proof.Machine

/-! ### Helpers -/

/-- What `f` says of the next state, if there is one. -/
def after {α : Type} (o : Host.Outcome State Fault Refusal) (f : State → α) : Option α :=
  match o with
  | .next t => some (f t)
  | .fault _ => none
  | .refused _ => none

/-- The `n` bytes at `a`. -/
def bytesAt (a n : Nat) (s : State) : List Nat := (List.range n).map fun k => (Memory.read s.mem (a + k)).toNat

/-- The reset state over a memory. -/
def withMem (m : Memory) : State := { State.reset with mem := m }

/-- The same, busy with a command. -/
def busyWith (i : Instr) (m : Memory) : State := latchCommand (encode i) (withMem m)

/-- The two-tap kernel `0,0,0,64,64,0,0,0` of the spec's examples. -/
def half : Kernel := ⟨0, 0, 0, 64, 64, 0, 0, 0⟩

/-- The full kernel `-1,6,-19,78,78,-19,6,-1` of the spec's examples. -/
def full8 : Kernel := ⟨-1, 6, -19, 78, 78, -19, 6, -1⟩

/-- The example of R146. -/
def putExample : InterCmd := ⟨2, 1, 0x2000, 8, 0x1000, 8, 16, 16, half, Kernel.identity⟩

def putMem : Memory := [(0x1000, 10), (0x1001, 13), (0x1002, 20)]

/-- The example of R162. -/
def avgExample : InterCmd := ⟨2, 1, 0x2000, 8, 0x1000, 8, 16, 16, Kernel.identity, Kernel.identity⟩

def avgMem : Memory := [(0x1000, 100), (0x2000, 101), (0x2001, 255)]

/-- The first witness of R141: one pass after the other, each rounded. -/
def twoPassExample : InterCmd := ⟨1, 1, 0x2000, 1, 0x1000, 2, 16, 16, half, half⟩

/-- The examples of R178 and S8: above and left are 10, 20, 30, 40. -/
def dcExample : IntraCmd := ⟨true, true, 128, 4, 4, 0x3000, 4, 0x100, 0x200⟩

def dcMem : Memory :=
  [(0x100, 10), (0x101, 20), (0x102, 30), (0x103, 40), (0x200, 10), (0x201, 20), (0x202, 30), (0x203, 40)]

/-- The example of R179. -/
def tmExample : IntraCmd := ⟨true, true, 20, 4, 4, 0x3000, 4, 0x100, 0x200⟩

def tmMem : Memory :=
  [(0x100, 10), (0x101, 20), (0x102, 30), (0x103, 40), (0x200, 5), (0x201, 100), (0x202, 200), (0x203, 250)]

/-- The examples of R176 and R177. -/
def edgeExample : IntraCmd := ⟨true, true, 0, 4, 2, 0x3000, 8, 0x100, 0x200⟩

def edgeMem : Memory := [(0x100, 1), (0x101, 2), (0x102, 3), (0x103, 4), (0x200, 7), (0x201, 9)]

/-! ### Well-formedness refuses one ill-formed term for each check -/

theorem test_coeff_low : coeffWellFormed (-32769) = false := by decide
theorem test_coeff_high : coeffWellFormed 32768 = false := by decide
theorem test_kernel : Kernel.wellFormed ⟨0, 0, 0, 0, 0, 0, 0, 32768⟩ = false := by decide
theorem test_inter_w : (Instr.interPut { putExample with w := 65536 }).wellFormed = false := by decide
theorem test_inter_h : (Instr.interAvg { putExample with h := 65536 }).wellFormed = false := by decide
theorem test_inter_dst : (Instr.interPut { putExample with dstAddr := 4294967296 }).wellFormed = false := by decide
theorem test_inter_ds : (Instr.interPut { putExample with dstStride := 4294967296 }).wellFormed = false := by decide
theorem test_inter_src : (Instr.interPut { putExample with srcAddr := 4294967296 }).wellFormed = false := by decide
theorem test_inter_ss : (Instr.interPut { putExample with srcStride := 4294967296 }).wellFormed = false := by decide
theorem test_inter_sx : (Instr.interPut { putExample with stepX := 65536 }).wellFormed = false := by decide
theorem test_inter_sy : (Instr.interPut { putExample with stepY := 65536 }).wellFormed = false := by decide
theorem test_inter_fx : (Instr.interPut { putExample with fx := { half with t0 := 40000 } }).wellFormed = false := by decide
theorem test_inter_fy : (Instr.interPut { putExample with fy := { half with t7 := -40000 } }).wellFormed = false := by decide
theorem test_intra_corner : (Instr.intraTm { tmExample with corner := 256 }).wellFormed = false := by decide
theorem test_intra_w : (Instr.intraV { tmExample with w := 65536 }).wellFormed = false := by decide
theorem test_intra_h : (Instr.intraH { tmExample with h := 65536 }).wellFormed = false := by decide
theorem test_intra_dst : (Instr.intraDc { tmExample with dstAddr := 4294967296 }).wellFormed = false := by decide
theorem test_intra_ds : (Instr.intraDc { tmExample with dstStride := 4294967296 }).wellFormed = false := by decide
theorem test_intra_above : (Instr.intraV { tmExample with aboveAddr := 4294967296 }).wellFormed = false := by decide
theorem test_intra_left : (Instr.intraH { tmExample with leftAddr := 4294967296 }).wellFormed = false := by decide
theorem test_wellFormed_edges :
    (Instr.interPut ⟨65535, 65535, 4294967295, 4294967295, 4294967295, 4294967295, 65535, 65535,
      ⟨-32768, 32767, 0, 0, 0, 0, 0, 0⟩, half⟩).wellFormed = true := by decide

/-! ### Decoding and encoding: words written out from R81 to R87, R91 and R103 -/

/-- S9 and R87: the full kernel's four words. -/
theorem test_decode_interPut :
    decode #v[0x00000001, 0x00010004, 0x00002000, 0x00000004, 0x00001000, 0x00000010, 0x00100010, 0, 0x0006FFFF,
      0x004EFFED, 0xFFED004E, 0xFFFF0006, 0, 0x00800000, 0, 0] =
    .ok (.interPut ⟨4, 1, 0x2000, 4, 0x1000, 16, 16, 16, full8, Kernel.identity⟩) := by decide

theorem test_encode_interPut :
    encode (.interPut ⟨4, 1, 0x2000, 4, 0x1000, 16, 16, 16, full8, Kernel.identity⟩) =
    #v[0x00000001, 0x00010004, 0x00002000, 0x00000004, 0x00001000, 0x00000010, 0x00100010, 0, 0x0006FFFF,
      0x004EFFED, 0xFFED004E, 0xFFFF0006, 0, 0x00800000, 0, 0] := by decide

theorem test_decode_interAvg :
    decode #v[0x00000041, 0x00010002, 0x00002000, 8, 0x00001000, 8, 0x00100010, 0, 0, 0x00400000, 0x00000040, 0, 0,
      0x00800000, 0, 0] =
    .ok (.interAvg ⟨2, 1, 0x2000, 8, 0x1000, 8, 16, 16, half, Kernel.identity⟩) := by decide

/-- R91: `c` = 0xA5, `l` = 0, `a` = 1. -/
theorem test_decode_intraV :
    decode #v[0x00A50082, 0x00020004, 0x00003000, 8, 0x100, 0x200, 0, 0, 0, 0, 0, 0, 0, 0, 0, 0] =
    .ok (.intraV ⟨true, false, 0xA5, 4, 2, 0x3000, 8, 0x100, 0x200⟩) := by decide

/-- R91: `l` = 1, `a` = 0. -/
theorem test_decode_intraH :
    decode #v[0x00FF0112, 0x00020004, 0x00003010, 8, 0x100, 0x200, 0, 0, 0, 0, 0, 0, 0, 0, 0, 0] =
    .ok (.intraH ⟨false, true, 255, 4, 2, 0x3010, 8, 0x100, 0x200⟩) := by decide

/-- The example of R103. -/
theorem test_encode_intraDc :
    encode (.intraDc ⟨true, true, 128, 4, 4, 0x3000, 16, 0x2FF0, 0x2F00⟩) =
    #v[0x008001A2, 0x00040004, 0x00003000, 0x00000010, 0x00002FF0, 0x00002F00, 0, 0, 0, 0, 0, 0, 0, 0, 0, 0] := by decide

theorem test_decode_intraDc :
    decode #v[0x008001A2, 0x00040004, 0x00003000, 0x00000010, 0x00002FF0, 0x00002F00, 0, 0, 0, 0, 0, 0, 0, 0, 0, 0] =
    .ok (.intraDc ⟨true, true, 128, 4, 4, 0x3000, 16, 0x2FF0, 0x2F00⟩) := by decide

theorem test_decode_intraTm :
    decode #v[0x001401B2, 0x00040004, 0x00003000, 4, 0x100, 0x200, 0, 0, 0, 0, 0, 0, 0, 0, 0, 0] =
    .ok (.intraTm ⟨true, true, 20, 4, 4, 0x3000, 4, 0x100, 0x200⟩) := by decide

/-- R93, one descriptor for each case, rejected by name: (a) the reset descriptor, (b), (c), (d), (e), (f). -/
theorem test_illegal_names :
    decode (Vector.replicate 16 0) = .error .opcode ∧
    decode #v[0x80000002, 0, 0, 0, 0, 0, 0, 0, 0, 0, 0, 0, 0, 0, 0, 0] = .error .reservedBits ∧
    decode #v[0x00000201, 0, 0, 0, 0, 0, 0, 0, 0, 0, 0, 0, 0, 0, 0, 0] = .error .reservedBits ∧
    decode #v[0x00000081, 0, 0, 0, 0, 0, 0, 0, 0, 0, 0, 0, 0, 0, 0, 0] = .error .interFields ∧
    decode #v[0x00000042, 0, 0, 0, 0, 0, 0, 0, 0, 0, 0, 0, 0, 0, 0, 0] = .error .intraBlend ∧
    decode #v[0x00000001, 0, 0, 0, 0, 0, 0, 1, 0, 0, 0, 0, 0, 0, 0, 0] = .error .reservedWord ∧
    decode #v[0x00000002, 0, 0, 0, 0, 0, 0, 0, 0, 0, 0, 0, 0, 0, 0, 1] = .error .intraWords := by decide

/-- The six `match` values of the opcode table, operand words zero. -/
theorem test_table_words :
    (decodeTableWord 32 0x01).map blockOf = some ⟨0, 0, 0, 0⟩ ∧
    [0x01, 0x41, 0x02, 0x12, 0x22, 0x32].map (fun w => (decodeTableWord 32 w).map encode) =
    [0x01, 0x41, 0x02, 0x12, 0x22, 0x32].map (fun w => some #v[w, 0, 0, 0, 0, 0, 0, 0, 0, 0, 0, 0, 0, 0, 0, 0]) := by decide

/-- A descriptor as one number, word 0 lowest; a placed word is what the next step runs: an all-zero size is `ERR_SIZE`. -/
theorem test_placed_word :
    descriptorOfBits 512 (0x00000001 + 0x00040004 * 4294967296) =
      #v[0x00000001, 0x00040004, 0, 0, 0, 0, 0, 0, 0, 0, 0, 0, 0, 0, 0, 0] ∧
    after (step (State.reset.withFetchWord 32 0x22)) State.status = some 0x26 := by decide

/-! ### The assembler (R97 to R102) -/

theorem test_asm_intraDc :
    assembleText "INTRA.dc dst=0x3000, ds=16, w=4,h=4 , above=0x2FF0, left=0x2F00" =
    some #v[0x008001A2, 0x00040004, 0x00003000, 0x00000010, 0x00002FF0, 0x00002F00, 0, 0, 0, 0, 0, 0, 0, 0, 0, 0] := by
  decide +kernel

theorem test_asm_kernel :
    (assembleText ("inter.put dst=0x2000, ds=4, src=0x1000, ss=16, w=4, h=1, fx=" ++
      String.ofList [openBrace] ++ "-1,6,-19,78,78,-19,6,-1" ++ String.ofList [closeBrace])) =
    some (encode (.interPut ⟨4, 1, 0x2000, 4, 0x1000, 16, 16, 16, full8, Kernel.identity⟩)) := by decide +kernel

theorem test_asm_copy :
    assembleText "copy dst=0x2000, ds=4, src=0x1000, ss=8, w=4, h=4" =
    some (encode (.interPut ⟨4, 4, 0x2000, 4, 0x1000, 8, 16, 16, Kernel.identity, Kernel.identity⟩)) := by decide +kernel

theorem test_asm_bad_flag : assembleText "intra.v dst=0, ds=4, w=4, h=4, ha=2" = none := by decide +kernel

/-! ### One step of each command -/

/-- R146. -/
theorem test_interPut_bilinear :
    after (exec (.interPut putExample) (withMem putMem)) (bytesAt 0x2000 3) = some [12, 17, 0] := by decide

/-- R141: two roundings, so 1 and not 0. -/
theorem test_interPut_two_pass :
    after (exec (.interPut twoPassExample) (withMem [(0x1001, 1)])) (bytesAt 0x2000 2) = some [1, 0] := by decide

/-- R162. -/
theorem test_interAvg :
    after (step (busyWith (.interAvg avgExample) avgMem)) (fun t => (bytesAt 0x2000 3 t, t.status)) =
    some ([101, 128, 0], 2) := by decide

/-- The kernel of R114, full taps over 10 to 80: 45, blended with 0. -/
theorem test_interAvg_full :
    after (exec (.interAvg ⟨1, 1, 0x2000, 1, 0x1003, 1, 16, 16, full8, Kernel.identity⟩)
      (withMem [(0x1000, 10), (0x1001, 20), (0x1002, 30), (0x1003, 40), (0x1004, 50), (0x1005, 60), (0x1006, 70), (0x1007, 80)]))
      (bytesAt 0x2000 1) = some [23] := by decide

/-- R176: the gap between two rows is not written. -/
theorem test_intraV :
    after (exec (.intraV edgeExample) (withMem edgeMem)) (bytesAt 0x3000 13) =
    some [1, 2, 3, 4, 0, 0, 0, 0, 1, 2, 3, 4, 0] := by decide

/-- R177. -/
theorem test_intraH :
    after (exec (.intraH edgeExample) (withMem edgeMem)) (bytesAt 0x3000 13) =
    some [7, 7, 7, 7, 0, 0, 0, 0, 9, 9, 9, 9, 0] := by decide

/-- S8 and R178. -/
theorem test_intraDc : after (exec (.intraDc dcExample) (withMem dcMem)) (bytesAt 0x3000 16) = some (List.replicate 16 25) := by decide

/-- R175: no neighbors, 128, and `ABOVE_ADDR` and `LEFT_ADDR` are not used. -/
theorem test_intraDc_neutral :
    after (exec (.intraDc ⟨false, false, 7, 2, 1, 0x3000, 2, 4294967295, 4294967295⟩) (withMem [])) (bytesAt 0x3000 3) =
    some [128, 128, 0] := by decide

/-- R179: both clamps. -/
theorem test_intraTm :
    after (exec (.intraTm tmExample) (withMem tmMem)) (bytesAt 0x3000 16) =
    some [0, 5, 15, 25, 90, 100, 110, 120, 190, 200, 210, 220, 240, 250, 255, 255] := by decide

/-! ### Errors and control -/

/-- R227: a full horizontal kernel at address 2 reads below 0; a two-tap one does not. -/
theorem test_addr_example :
    after (exec (.interPut ⟨4, 4, 0x2000, 4, 2, 64, 16, 16, full8, Kernel.identity⟩) (withMem [])) State.status = some 0x76 ∧
    after (exec (.interPut ⟨4, 4, 0x2000, 4, 2, 64, 16, 16, half, Kernel.identity⟩) (withMem [])) State.status = some 2 := by decide

/-- R230: `W = 0` and a bad step is `ERR_SIZE`. -/
theorem test_lowest_code :
    after (step (busyWith (.interPut { putExample with w := 0, stepX := 8 }) [])) State.status = some 0x26 := by decide

/-- R35: a `START` straight after reset ends with code 1; another `START` is ignored, and `CLR` then `START` is not. -/
theorem test_start_after_reset :
    after (step (regWrite 16 1 State.reset)) State.status = some 0x16 ∧
    after (step (regWrite 16 1 State.reset)) (fun t => (regWrite 16 1 t).status) = some 0x16 ∧
    after (step (regWrite 16 1 State.reset)) (fun t => (regWrite 16 3 t).status) = some 1 := by decide

/-! ### Witnesses: each obligation's hypotheses hold together somewhere -/

/-- A command whose checks pass and whose contract is kept, from the model's own tests. -/
theorem passes_of (i : Instr) (s : State) (h1 : firstFailingCheck i = none) (h2 : footprintValid i s = true)
    (h3 : footprintOverlaps i = false) : ChecksPass i ∧ ContractKept i s :=
  ⟨(firstFailingCheck_none_iff i).mp h1, (contractKept_iff i s).mpr ⟨h2, h3⟩⟩

theorem witness_TwoTapFormAgrees : half.t0 = 0 ∧ half.t1 = 0 ∧ half.t2 = 0 ∧ half.t5 = 0 ∧ half.t6 = 0 ∧ half.t7 = 0 := by decide

/-- The first and the last index. -/
theorem witness_IdentityKernelReturnsSample :
    (Kernel.identity.taps[3] = 128 ∧ ∀ (j : Fin 8), j.val ≠ 3 → Kernel.identity.taps[j.val]'(j.isLt) = 0) ∧
    ([0, 128] : List Int)[1] = 128 ∧ ([0, 128] : List Int)[0] = 0 ∧ ([128, 0] : List Int)[0] = 128 ∧ ([128, 0] : List Int)[1] = 0 := by
  decide

/-- The two ends of each range of R117. -/
theorem witness_KernelSaturates :
    32576 ≤ mac [1] [32576] ∧ mac [1] [63] ≤ 63 ∧ (63 < mac [1] [64] ∧ mac [1] [64] < 32576) ∧
    (63 < mac [1] [32575] ∧ mac [1] [32575] < 32576) := by decide

theorem witness_ConstantInputIsKept : full8.taps.sum = 128 := by decide

/-- A two-pass command, a one-axis command and the largest width. -/
theorem witness_InterPutStoresPredictor :
    (ChecksPass (.interPut twoPassExample) ∧ ContractKept (.interPut twoPassExample) (withMem [])) ∧
    (ChecksPass (.interPut putExample) ∧ ContractKept (.interPut putExample) (withMem putMem) ∧ classY putExample = .copy) ∧
    (ChecksPass (.interPut ⟨64, 1, 0x2000, 64, 0x1000, 64, 16, 16, full8, Kernel.identity⟩) ∧
      ContractKept (.interPut ⟨64, 1, 0x2000, 64, 0x1000, 64, 16, 16, full8, Kernel.identity⟩) (withMem [])) :=
  ⟨passes_of _ _ (by decide) (by decide) (by decide),
   ⟨(passes_of _ (withMem putMem) (by decide) (by decide) (by decide)).1,
    (passes_of _ _ (by decide) (by decide) (by decide)).2, by decide⟩,
   passes_of _ _ (by decide) (by decide) (by decide)⟩

theorem witness_InterAvgBlendsPredictor :
    (ChecksPass (.interAvg avgExample) ∧ ContractKept (.interAvg avgExample) (withMem avgMem) ∧ classX avgExample = .copy) ∧
    (ChecksPass (.interAvg twoPassExample) ∧ ContractKept (.interAvg twoPassExample) (withMem [])) :=
  ⟨⟨(passes_of _ (withMem avgMem) (by decide) (by decide) (by decide)).1,
    (passes_of _ _ (by decide) (by decide) (by decide)).2, by decide⟩,
   passes_of _ _ (by decide) (by decide) (by decide)⟩

theorem witness_CopyDegeneracyCopiesBlock :
    avgExample.fx = ⟨0, 0, 0, 128, 0, 0, 0, 0⟩ ∧ avgExample.fy = ⟨0, 0, 0, 128, 0, 0, 0, 0⟩ ∧
    ChecksPass (.interPut avgExample) ∧ ContractKept (.interPut avgExample) (withMem avgMem) :=
  ⟨by decide, by decide, passes_of _ _ (by decide) (by decide) (by decide)⟩

theorem witness_IntraVReplicatesAboveRow :
    (ChecksPass (.intraV edgeExample) ∧ ContractKept (.intraV edgeExample) (withMem edgeMem)) ∧
    (SizeOk (intraBlock { edgeExample with hasAbove := false }) ∧ edgeExample.w ≤ edgeExample.dstStride) :=
  ⟨passes_of _ _ (by decide) (by decide) (by decide), (badSize_false_iff _).mp (by decide), by decide⟩

theorem witness_IntraHReplicatesLeftColumn :
    (ChecksPass (.intraH edgeExample) ∧ ContractKept (.intraH edgeExample) (withMem edgeMem)) ∧
    (SizeOk (intraBlock { edgeExample with hasLeft := false }) ∧ edgeExample.w ≤ edgeExample.dstStride) :=
  ⟨passes_of _ _ (by decide) (by decide) (by decide), (badSize_false_iff _).mp (by decide), by decide⟩

/-- All four flag combinations. -/
theorem witness_IntraDcFillsWithMean : ∀ a l : Bool,
    ChecksPass (.intraDc { dcExample with hasAbove := a, hasLeft := l }) ∧
    ContractKept (.intraDc { dcExample with hasAbove := a, hasLeft := l }) (withMem dcMem) := by
  intro a l
  apply passes_of <;> revert a l <;> decide

theorem witness_IntraTmAddsGradient :
    (ChecksPass (.intraTm tmExample) ∧ ContractKept (.intraTm tmExample) (withMem tmMem)) ∧
    (SizeOk (intraBlock tmExample) ∧ tmExample.w ≤ tmExample.dstStride) :=
  ⟨passes_of _ _ (by decide) (by decide) (by decide), (badSize_false_iff _).mp (by decide), by decide⟩

/-- Above and left all 9. -/
def flatMem : Memory := [(0x100, 9), (0x101, 9), (0x102, 9), (0x103, 9), (0x200, 9), (0x201, 9), (0x202, 9), (0x203, 9)]

theorem witness_IntraLaws :
    (ChecksPass (.intraDc { dcExample with hasLeft := false }) ∧
      ContractKept (.intraDc { dcExample with hasLeft := false }) (withMem flatMem) ∧
      ∀ x, x < dcExample.w → Memory.read flatMem (dcExample.aboveAddr + x) = 9) ∧
    (ChecksPass (.intraDc { dcExample with hasAbove := false, hasLeft := false }) ∧
      ContractKept (.intraDc { dcExample with hasAbove := false, hasLeft := false }) (withMem flatMem)) ∧
    (ChecksPass (.intraTm { tmExample with corner := 9 }) ∧ ContractKept (.intraTm { tmExample with corner := 9 }) (withMem flatMem) ∧
      (∀ y, y < tmExample.h → (Memory.read flatMem (tmExample.leftAddr + y)).toNat = 9) ∧
      (∀ x, x < tmExample.w → (Memory.read flatMem (tmExample.aboveAddr + x)).toNat = 9)) :=
  ⟨⟨(passes_of _ (withMem flatMem) (by decide) (by decide) (by decide)).1, (passes_of _ _ (by decide) (by decide) (by decide)).2, by decide⟩,
   passes_of _ _ (by decide) (by decide) (by decide),
   (passes_of _ (withMem flatMem) (by decide) (by decide) (by decide)).1, (passes_of _ _ (by decide) (by decide) (by decide)).2,
   by decide, by decide⟩

theorem witness_TmpIsWrittenByTwoPassOnly :
    (ChecksPass (.interPut putExample) ∧ ContractKept (.interPut putExample) (withMem putMem) ∧ classY putExample = .copy) ∧
    (ChecksPass (.interAvg twoPassExample) ∧ ContractKept (.interAvg twoPassExample) (withMem []) ∧
      classX twoPassExample ≠ .copy ∧ classY twoPassExample ≠ .copy) :=
  ⟨⟨(passes_of _ (withMem putMem) (by decide) (by decide) (by decide)).1,
    (passes_of _ _ (by decide) (by decide) (by decide)).2, by decide⟩,
   ⟨(passes_of _ (withMem []) (by decide) (by decide) (by decide)).1,
    (passes_of _ _ (by decide) (by decide) (by decide)).2, by decide, by decide⟩⟩

theorem witness_UnusedIntraFieldsIgnored :
    ({ dcExample with hasAbove := false } : IntraCmd).hasAbove = false ∧ ({ dcExample with hasLeft := false } : IntraCmd).hasLeft = false := by
  decide

/-- Two memories that differ at 0x104 only, one past the above row. -/
theorem witness_ResultDependsOnReadSetOnly :
    ChecksPass (.intraV edgeExample) ∧ (∃ t, exec (.intraV edgeExample) (withMem edgeMem) = .next t) ∧
    (∃ t, exec (.intraV edgeExample) (withMem (Memory.write edgeMem 0x104 5)) = .next t) ∧
    (∀ a : Nat, InReadSet (.intraV edgeExample) (a : Int) → Memory.read edgeMem a = Memory.read (Memory.write edgeMem 0x104 5) a) := by
  refine ⟨(passes_of _ (withMem []) (by decide) (by decide) (by decide)).1, ⟨_, rfl⟩, ⟨_, rfl⟩, ?_⟩
  intro a ha
  rw [read_write_of_ne]
  intro he
  subst he
  exact absurd ((inReadSet_iff _ _).mp ha) (by decide)

/-- Two rectangles that do not meet share no address. -/
theorem disjoint_of (p q : Rect) (h : p.meets q = false) : ∀ k, InRect p k → ¬ InRect q k := by
  intro k hp hq
  rw [(meets_iff p q).mpr ⟨k, hp, hq⟩] at h
  cases h

/-- A second INTRA.DC beside the first. -/
def dcBeside : IntraCmd := { dcExample with dstAddr := 0x4000 }

/-- Two INTRA.DC commands side by side, the second block and its edges clear of the first. -/
theorem witness_DisjointCommandsCommute :
    (∃ a1, exec (.intraDc dcExample) (withMem dcMem) = .next a1 ∧
      ∃ b1, exec (.intraDc dcBeside) { State.reset with mem := a1.mem } = .next b1) ∧
    (∀ k, InWriteSet (intraBlock dcExample) k → ¬ InWriteSet (intraBlock dcBeside) k) ∧
    (∀ k, InWriteSet (intraBlock dcExample) k → ¬ InReadSet (.intraDc dcBeside) k) ∧
    (∀ k, InWriteSet (intraBlock dcBeside) k → ¬ InReadSet (.intraDc dcExample) k) := by
  have hread : ∀ c d : IntraCmd, (writeSet (.intraDc c)).meets (aboveSet d) = false → (writeSet (.intraDc c)).meets (leftSet d) = false →
      ∀ k, InWriteSet (intraBlock c) k → ¬ InReadSet (.intraDc d) k := by
    rintro c d h1 h2 k hk (⟨_, h⟩ | ⟨_, h⟩)
    · exact disjoint_of _ _ h1 k hk ((inRect_aboveSet d k).mpr h)
    · exact disjoint_of _ _ h2 k hk ((inRect_leftSet d k).mpr h)
  exact ⟨⟨_, rfl, _, rfl⟩, disjoint_of (writeSet (.intraDc dcExample)) (writeSet (.intraDc dcBeside)) (by decide),
    hread _ _ (by decide) (by decide), hread _ _ (by decide) (by decide)⟩

/-- Each clause of R230: an illegal latch; a width of 0 and a height of 65; each stride one short; a step of 17; a sum of 127;
a missing edge; an edge one byte too far; and a command that passes with its edge on the last byte. -/
theorem witness_LowestFailingCheckIsRecorded :
    decode (Vector.replicate 16 0) = .error .opcode ∧
    (decode (encode (.interPut { putExample with w := 0 })) = .ok (.interPut { putExample with w := 0 }) ∧
      ¬ SizeOk (interBlock { putExample with w := 0 })) ∧
    ¬ SizeOk (intraBlock { edgeExample with h := 65 }) ∧
    (SizeOk (intraBlock { edgeExample with dstStride := 3 }) ∧ StrideBroken (.intraV { edgeExample with dstStride := 3 })) ∧
    (SizeOk (interBlock { putExample with srcStride := 1 }) ∧ StrideBroken (.interAvg { putExample with srcStride := 1 })) ∧
    (SizeOk (interBlock { putExample with stepY := 17 }) ∧ ¬ StrideBroken (.interPut { putExample with stepY := 17 }) ∧
      StepBroken (.interPut { putExample with stepY := 17 })) ∧
    (SizeOk (interBlock { putExample with fx := { half with t4 := 63 } }) ∧
      ¬ StrideBroken (.interAvg { putExample with fx := { half with t4 := 63 } }) ∧
      ¬ StepBroken (.interAvg { putExample with fx := { half with t4 := 63 } }) ∧
      CoeffBroken (.interAvg { putExample with fx := { half with t4 := 63 } })) ∧
    (SizeOk (intraBlock tmExample) ∧ ¬ StrideBroken (.intraTm { tmExample with hasLeft := false }) ∧
      NeighborBroken (.intraTm { tmExample with hasLeft := false })) ∧
    (SizeOk (intraBlock edgeExample) ∧ ¬ StrideBroken (.intraH { edgeExample with leftAddr := 4294967295 }) ∧
      ¬ NeighborBroken (.intraH { edgeExample with leftAddr := 4294967295 }) ∧
      ¬ AddrOk (.intraH { edgeExample with leftAddr := 4294967295 })) ∧
    (ChecksPass (.intraH { edgeExample with leftAddr := 4294967294 }) ∧
      ∃ t, exec (.intraH { edgeExample with leftAddr := 4294967294 }) State.reset = .next t) := by
  have size : ∀ b, badSize b = false → SizeOk b := fun b => (badSize_false_iff b).mp
  have stride : ∀ i, badStride i = false → ¬ StrideBroken i := fun i h hb => by rw [(badStride_iff i).mpr hb] at h; cases h
  have step : ∀ i, badStep i = false → ¬ StepBroken i := fun i h hb => by rw [(badStep_iff i).mpr hb] at h; cases h
  refine ⟨by decide, ⟨by decide, fun h => absurd h.1 (by decide)⟩, fun h => absurd h.2.2.2 (by decide),
    ⟨size _ (by decide), (badStride_iff _).mp (by decide)⟩, ⟨size _ (by decide), (badStride_iff _).mp (by decide)⟩,
    ⟨size _ (by decide), stride _ (by decide), (badStep_iff _).mp (by decide)⟩,
    ⟨size _ (by decide), stride _ (by decide), step _ (by decide), (badCoeff_iff _).mp (by decide)⟩,
    ⟨size _ (by decide), stride _ (by decide), (badNeighbor_iff _).mp (by decide)⟩,
    ⟨size _ (by decide), stride _ (by decide), fun h => (by cases (badNeighbor_iff _).mpr h), fun h => ?_⟩,
    ⟨(passes_of _ State.reset (by decide) (by decide) (by decide)).1, ⟨_, rfl⟩⟩⟩
  have := (badAddr_false_iff (.intraH { edgeExample with leftAddr := 4294967295 }) (size _ (by decide))).mpr h
  revert this
  decide

theorem witness_ErrorEntryIsExact :
    decode State.reset.cmd = .error .opcode ∧
    (decode (busyWith (.intraV { edgeExample with hasAbove := false }) []).cmd = .ok (.intraV { edgeExample with hasAbove := false }) ∧
      firstFailingCheck (.intraV { edgeExample with hasAbove := false }) = some .neighbor) := by decide

/-- The last legal byte and one past it. -/
theorem witness_AddressCheckUsesExtremes :
    (SizeOk (interBlock { putExample with dstAddr := 4294967294 }) ∧ InterOk { putExample with dstAddr := 4294967294 }) ∧
    (SizeOk (intraBlock tmExample) ∧ tmExample.w ≤ tmExample.dstStride) ∧
    firstFailingCheck (.interPut { putExample with dstAddr := 4294967294 }) = none ∧
    firstFailingCheck (.interPut { putExample with dstAddr := 4294967295 }) = some .addr :=
  ⟨⟨(badSize_false_iff _).mp (by decide),
     ((firstFailingCheck_none_iff (.interPut { putExample with dstAddr := 4294967294 })).mp (by decide)).2.2⟩,
   ⟨(badSize_false_iff _).mp (by decide), by decide⟩, by decide, by decide⟩

/-- The engine halted by the reset descriptor, the host about to read `STATUS`. -/
def haltedState : State := { errorEntry .illegal State.reset with agenda := [.regRead 17] }

theorem haltedState_invariant : Invariant haltedState :=
  ⟨⟨by decide, by decide, by decide⟩, by decide, by decide, by decide, by decide, by decide⟩

theorem witness_HaltedUntilClearOrReset :
    Invariant haltedState ∧ haltedState.err = true ∧ (∃ t, step haltedState = .next t) ∧
    (∀ v rest, haltedState.agenda = .regWrite 16 v :: rest → field v 1 1 = 0) ∧ (∀ rest, haltedState.agenda ≠ .reset :: rest) ∧
    (∀ a v rest, haltedState.agenda ≠ .memWrite a v :: rest) :=
  ⟨haltedState_invariant, by decide, ⟨_, rfl⟩, by simp [haltedState], by simp [haltedState], by simp [haltedState]⟩

theorem witness_ErrorRecordIsNeverCleared : ∃ t, step haltedState = .next t := ⟨_, rfl⟩

/-- A destination one byte past the only region; and a destination that is the source. -/
theorem witness_BrokenContractStops :
    (ChecksPass (.intraV edgeExample) ∧ InWriteSet (intraBlock edgeExample) 0x3000 ∧
      ({ State.reset with regions := [⟨0, 0x3000⟩] } : State).valid 0x3000 = false) ∧
    (footprintValid (.interPut { avgExample with dstAddr := 0x1000 }) State.reset = true ∧
      InSource (.interPut { avgExample with dstAddr := 0x1000 }) 0x1000 ∧
      InWriteSet (interBlock { avgExample with dstAddr := 0x1000 }) 0x1000) :=
  ⟨⟨(passes_of _ (withMem []) (by decide) (by decide) (by decide)).1, (writeSet_covers_iff (.intraV edgeExample) _).mp (by decide), by decide⟩,
   by decide, (inSource_iff _ _).mpr ⟨_, List.mem_singleton.mpr rfl, (covers_iff _ _).mp (by decide)⟩,
   (writeSet_covers_iff (.interPut { avgExample with dstAddr := 0x1000 }) _).mp (by decide)⟩

theorem witness_DecodeOfEncode :
    (Instr.interPut ⟨65535, 65535, 4294967295, 4294967295, 4294967295, 4294967295, 65535, 65535,
      ⟨-32768, 32767, 0, 0, 0, 0, 0, 0⟩, half⟩).wellFormed = true ∧ (Instr.intraTm tmExample).wellFormed = true := by decide

theorem witness_EncodeOfDecode : decode (encode (.intraTm tmExample)) = .ok (.intraTm tmExample) := by decide

theorem witness_IllegalDescriptors : decode State.reset.cmd = .error .opcode := by decide

theorem witness_PseudoInstructionsExpand :
    (InterCmd.mk 4 4 0x2000 4 0x1000 8 16 16 half Kernel.identity).wellFormed = true := by decide

theorem witness_DispatcherSelectsBySize :
    sizeVariant 4 64 = .width4 ∧ sizeVariant 8 4 = .width8 ∧ sizeVariant 16 16 = .width16 ∧ sizeVariant 32 8 = .width32 ∧
    sizeVariant 64 64 = .width64 ∧ sizeVariant 16 5 = .generic := by decide

theorem witness_DescHoldsLastHostWrite :
    (∃ t, step haltedState = .next t) ∧ (∀ i v rest, haltedState.agenda = .regWrite i v :: rest → 16 ≤ i) ∧
    (∀ rest, haltedState.agenda ≠ .reset :: rest) :=
  ⟨⟨_, rfl⟩, by simp [haltedState], by simp [haltedState]⟩

/-- `CTRL` words: `START` alone, `CLR` alone, both, with and without ignored bits. -/
theorem witness_controlWords :
    (field (1 : Word) 1 1 = 0 ∧ field (1 : Word) 0 0 = 1) ∧ (field (2 : Word) 1 1 = 1 ∧ field (2 : Word) 0 0 = 0) ∧
    (field (3 : Word) 1 1 = 1 ∧ field (3 : Word) 0 0 = 1) ∧ field (0xFFFFFFFD : Word) 1 0 = field (1 : Word) 1 0 := by decide

/-- The states the three trigger statements speak of: idle, busy, halted. -/
theorem witness_StartClearStates :
    (State.reset.busy = false ∧ State.reset.err = false) ∧ (busyWith (.intraV edgeExample) []).busy = true ∧ haltedState.err = true := by
  decide

theorem witness_DescWriteDoesNotReachRunningCommand :
    (busyWith (.intraV edgeExample) edgeMem).busy = true ∧ ∃ t, execLatch (busyWith (.intraV edgeExample) edgeMem) = .next t :=
  ⟨by decide, ⟨_, rfl⟩⟩

/-- A busy engine with nothing scheduled, its own turn scheduled, the host polling; an illegal latch; an idle engine. -/
theorem witness_StepRunsLatchedCommand :
    (∀ l ∈ [[], [.engine], [.wait]],
      ({ busyWith (.intraV edgeExample) edgeMem with agenda := l } : State).busy = true ∧
      decode ({ busyWith (.intraV edgeExample) edgeMem with agenda := l } : State).cmd = .ok (.intraV edgeExample) ∧
      ({ busyWith (.intraV edgeExample) edgeMem with agenda := l } : State).done = false) ∧
    ((latchCommand (Vector.replicate 16 0) State.reset).busy = true ∧ decode (latchCommand (Vector.replicate 16 0) State.reset).cmd = .error .opcode ∧
      (latchCommand (Vector.replicate 16 0) State.reset).agenda = []) ∧
    (State.reset.busy = false ∧ State.reset.agenda = []) := by decide

theorem witness_PlacedCommandRunsNext : (Instr.intraV edgeExample).wellFormed = true := by decide

theorem busyState_invariant : Invariant (busyWith (.intraV edgeExample) edgeMem) :=
  ⟨⟨by decide, by decide, by decide⟩, by decide, by decide, by decide, by decide, by decide⟩

theorem witness_CompletionStatusIsTwo :
    Invariant (busyWith (.intraV edgeExample) edgeMem) ∧ (busyWith (.intraV edgeExample) edgeMem).busy = true ∧
    decode (busyWith (.intraV edgeExample) edgeMem).cmd = .ok (.intraV edgeExample) ∧ ChecksPass (.intraV edgeExample) ∧
    ContractKept (.intraV edgeExample) (busyWith (.intraV edgeExample) edgeMem) :=
  ⟨busyState_invariant, by decide, by decide, passes_of _ _ (by decide) (by decide) (by decide)⟩

theorem witness_HostProtocolRunsOneCommand :
    (Instr.intraTm tmExample).wellFormed = true ∧ (withMem tmMem).busy = false ∧ (withMem tmMem).err = false ∧
    (withMem tmMem).errCode = 0 ∧ ChecksPass (.intraTm tmExample) ∧
    ContractKept (.intraTm tmExample) { withMem tmMem with agenda := commandScript (.intraTm tmExample) ++ [] } :=
  ⟨by decide, by decide, by decide, by decide, passes_of _ _ (by decide) (by decide) (by decide)⟩

/-- A copy onto its own source: it passes its checks, and its source meets its block. -/
def overlapExample : InterCmd := { avgExample with dstAddr := 0x1000 }

/-- R250, U13: a reset that cuts off a command whose source meets its block completes with every register cleared. -/
theorem test_reset_overlap :
    (resetInput (busyWith (.interPut overlapExample) avgMem)).status = 0 ∧
    (resetInput (busyWith (.interPut overlapExample) avgMem)).desc = Vector.replicate 16 0 := by decide

/-- R258: a `STATUS` read with `ERR` = 1 releases no command that has completed; one with `ERR` = 0 does. -/
theorem test_error_releases_nothing :
    let s := { State.reset with done := true, inFlight := [encode (.intraV edgeExample)] }
    (hostRead 17 { s with err := true, errCode := 1 }).inFlight = s.inFlight ∧ (hostRead 17 s).inFlight = [] := by decide

/-- A state whose next action is the reset input. -/
def resetNext (s : State) : State := { s with agenda := [.reset] }

/-- What the reset finds: an idle engine; an illegal latch; a command that a check will stop; one whose source meets its block;
one whose block ends one byte past the only region; and the byte just past the block of a command that passes. -/
theorem witness_ResetInputClearsRegisters :
    (∀ s : State, (resetNext s).agenda = .reset :: []) ∧ (resetNext State.reset).busy = false ∧
    (decode (resetNext (latchCommand (Vector.replicate 16 0) State.reset)).cmd = .error .opcode) ∧
    (decode (resetNext (busyWith (.intraV { edgeExample with hasAbove := false }) [])).cmd =
        .ok (.intraV { edgeExample with hasAbove := false }) ∧
      ¬ ChecksPass (.intraV { edgeExample with hasAbove := false })) ∧
    (decode (resetNext (busyWith (.interPut overlapExample) avgMem)).cmd = .ok (.interPut overlapExample) ∧
      ChecksPass (.interPut overlapExample) ∧ footprintOverlaps (.interPut overlapExample) = true) ∧
    (decode (resetNext (busyWith (.intraV edgeExample) edgeMem)).cmd = .ok (.intraV edgeExample) ∧ ChecksPass (.intraV edgeExample) ∧
      ¬ FootprintValid (.intraV edgeExample) { resetNext (busyWith (.intraV edgeExample) edgeMem) with regions := [⟨0, 0x300B⟩] }) ∧
    (∀ i, decode (resetNext (busyWith (.intraV edgeExample) edgeMem)).cmd = .ok i → ChecksPass i →
      ¬ InWriteSet (blockOf i) ((0x300C : Nat) : Int)) := by
  refine ⟨fun _ => rfl, rfl, by decide,
    ⟨by decide, fun h => absurd ((firstFailingCheck_none_iff (.intraV { edgeExample with hasAbove := false })).mpr h) (by decide)⟩,
    ⟨by decide, (firstFailingCheck_none_iff (.interPut overlapExample)).mp (by decide), by decide⟩,
    ⟨by decide, (passes_of _ (withMem []) (by decide) (by decide) (by decide)).1,
      fun h => absurd ((footprintValid_iff _ _).mpr h) (by decide)⟩, fun i hi _ => ?_⟩
  rw [show decode (resetNext (busyWith (.intraV edgeExample) edgeMem)).cmd = .ok (.intraV edgeExample) by decide] at hi
  cases hi
  rw [← writeSet_covers_iff]
  decide

/-- INTRA.V running, and an access of another agent scheduled. -/
def accessWhileRunning (a : Action) : State := { busyWith (.intraV edgeExample) edgeMem with agenda := [a] }

theorem accessWhileRunning_invariant (a : Action) : Invariant (accessWhileRunning a) := by
  obtain ⟨h1, h2, h3, h4, h5, h6⟩ := busyState_invariant
  exact ⟨h1, h2, h3, h4, h5, h6⟩

/-- While it runs: a write to the first byte of the above row, a write to and a read of the last byte of the block, a write to
the byte just past the block, and a read of a byte of the above row, which the command only reads. -/
theorem witness_ConflictingAccessIsRace :
    (∀ a : Action, Invariant (accessWhileRunning a) ∧ (accessWhileRunning a).busy = true ∧
      decode (accessWhileRunning a).cmd = .ok (.intraV edgeExample) ∧ (accessWhileRunning a).agenda = a :: [] ∧
      (∀ k ∈ [0x100, 0x300B, 0x300C], (accessWhileRunning a).valid (k : Nat) = true)) ∧
    ChecksPass (.intraV edgeExample) ∧ InReadSet (.intraV edgeExample) 0x100 ∧ InWriteSet (intraBlock edgeExample) 0x300B ∧
    (∀ a : Action, ∀ d ∈ (accessWhileRunning a).inFlight, ∀ i, decode d = .ok i → ChecksPass i →
      (¬ InReadSet i ((0x300C : Nat) : Int) ∧ ¬ InWriteSet (blockOf i) ((0x300C : Nat) : Int)) ∧
      ¬ InWriteSet (blockOf i) ((0x100 : Nat) : Int)) := by
  refine ⟨fun a => ⟨accessWhileRunning_invariant a, by rfl, by show decode (encode (.intraV edgeExample)) = _; decide, rfl, ?_⟩,
    (passes_of _ (withMem []) (by decide) (by decide) (by decide)).1, (inReadSet_iff _ _).mpr (by decide),
    (writeSet_covers_iff (.intraV edgeExample) _).mp (by decide), fun a d hd i hi _ => ?_⟩
  · show ∀ k ∈ [0x100, 0x300B, 0x300C], State.reset.valid ((k : Nat) : Int) = true
    decide
  · have hd' : d = encode (.intraV edgeExample) := List.mem_singleton.mp hd
    rw [hd', show decode (encode (.intraV edgeExample)) = .ok (.intraV edgeExample) by decide] at hi
    cases hi
    rw [inReadSet_iff, ← writeSet_covers_iff, ← writeSet_covers_iff]
    decide

/-- INTRA.V completed and its `DONE` not yet observed, with the next action given. -/
def completedUnobserved (a : Action) : State :=
  { withMem edgeMem with done := true, inFlight := [encode (.intraV edgeExample)], agenda := [a] }

/-- A `DESC` write keeps the command in flight; a `STATUS` read and a poll end the window; a read of the last byte of the block
comes before either. -/
theorem witness_UnobservedResultIsRace :
    ((∃ t, step (completedUnobserved (.regWrite 0 1)) = .next t) ∧
      (∀ rest, (completedUnobserved (.regWrite 0 1)).agenda ≠ .reset :: rest) ∧
      (∀ rest, (completedUnobserved (.regWrite 0 1)).agenda = .regRead 17 :: rest ∨
        (completedUnobserved (.regWrite 0 1)).agenda = .wait :: rest →
        (completedUnobserved (.regWrite 0 1)).done = false ∨ (completedUnobserved (.regWrite 0 1)).err = true) ∧
      encode (.intraV edgeExample) ∈ (completedUnobserved (.regWrite 0 1)).inFlight) ∧
    (∀ a ∈ [Action.regRead 17, .wait], (completedUnobserved a).agenda = a :: [] ∧ (completedUnobserved a).done = true ∧
      (completedUnobserved a).err = false) ∧
    (encode (.intraV edgeExample) ∈ (completedUnobserved (.memRead 0x300B)).inFlight ∧
      decode (encode (.intraV edgeExample)) = .ok (.intraV edgeExample) ∧ ChecksPass (.intraV edgeExample) ∧
      (completedUnobserved (.memRead 0x300B)).valid 0x300B = true ∧ InWriteSet (intraBlock edgeExample) 0x300B ∧
      (completedUnobserved (.memRead 0x300B)).agenda = .memRead 0x300B :: []) :=
  ⟨⟨⟨_, rfl⟩, by simp [completedUnobserved], by simp [completedUnobserved], by decide⟩, by decide,
   ⟨by decide, by decide, (passes_of _ (withMem []) (by decide) (by decide) (by decide)).1, by decide,
    (writeSet_covers_iff (.intraV edgeExample) _).mp (by decide), rfl⟩⟩

theorem witness_StepKeepsInvariant : Invariant haltedState ∧ ∃ t, step haltedState = .next t := ⟨haltedState_invariant, ⟨_, rfl⟩⟩

theorem witness_StatusTakesListedValues :
    Invariant haltedState ∧ haltedState.status = 0x16 ∧ Invariant (busyWith (.intraV edgeExample) edgeMem) ∧
    (busyWith (.intraV edgeExample) edgeMem).status = 1 :=
  ⟨haltedState_invariant, by decide, busyState_invariant, by decide⟩

end Sys2Proof.Tests
end

section
/-! PROOFS. Scope (00_scope.md): what a command stores depends only on the command and on its read set. -/

namespace Sys2Proof.Machine

/-- A command that passes its checks and answers has stored its samples in its block (R56, R61). -/
theorem blockWritten_of_exec {i : Instr} {s t : State} (hc : ChecksPass i) (h : exec i s = .next t) :
    BlockWritten (blockOf i) (samplesOf i s) s t := by
  rcases exec_mem_cases h with ⟨hfail, _⟩ | ⟨_, _, hw⟩
  · exact absurd hc hfail
  · exact hw

/-- Settles O19: both runs write the block's samples, and samples depend on the read set alone (`samplesOf_congr`). -/
theorem resultDependsOnReadSetOnly : Obligations.ResultDependsOnReadSetOnly := by
  unfold Obligations.ResultDependsOnReadSetOnly
  intro i s s' t t' hc ht ht' hagree a ha
  obtain ⟨y, x, hy, hx, rfl⟩ := (inWriteSet_natCast (blockOf i) a).mp ha
  obtain ⟨hblock, _⟩ := blockWritten_of_exec hc ht
  obtain ⟨hblock', _⟩ := blockWritten_of_exec hc ht'
  calc Memory.read t.mem ((blockOf i).dst + y * (blockOf i).stride + x)
      = samplesOf i s y x := hblock y x hy hx
    _ = samplesOf i s' y x := samplesOf_congr i hc s s' hagree y x hy hx
    _ = Memory.read t'.mem ((blockOf i).dst + y * (blockOf i).stride + x) := (hblock' y x hy hx).symm

end Sys2Proof.Machine
end

section
/-! PROOFS. State (10_state.md): the invariant holds at reset and every step keeps it, the values of `STATUS`, and who writes
`DESC`. -/

namespace Sys2Proof.Machine

/-! ### What the engine's turn and the other agents' accesses can do -/

/-- Everything the engine's turn can do that answers a next state: nothing where it is idle, else an error recorded or the
latched command completed (R205, R206). -/
theorem engineTurn_next {s t : State} (h : engineTurn s = .next t) :
    (s.busy = false ∧ t = s) ∨
    (s.busy = true ∧ ∃ e, t = errorEntry e s) ∨
    (s.busy = true ∧ ∃ i, decode s.cmd = .ok i ∧ ChecksPass i ∧ ContractKept i s ∧ t = complete (effectOf i s)) := by
  unfold engineTurn execLatch at h
  cases hb : s.busy with
  | false =>
    simp only [hb, Bool.false_eq_true, if_false, Host.Outcome.next.injEq] at h
    exact .inl ⟨rfl, h.symm⟩
  | true =>
    rw [if_pos hb] at h
    split at h
    · rename_i i hi
      rcases exec_next h with ⟨e, _, ht⟩ | ⟨hc, hk, ht⟩
      · exact .inr (.inl ⟨rfl, e, ht⟩)
      · exact .inr (.inr ⟨rfl, i, hi, hc, hk, ht⟩)
    · injection h with h
      exact .inr (.inl ⟨rfl, .illegal, h.symm⟩)

/-- Another agent's read that answers changes the reply alone (R70). -/
theorem agentRead_next {a : Nat} {s t : State} (h : agentRead a s = .next t) :
    t = { s with reply := some ((Memory.read s.mem a).setWidth 32) } := by
  unfold agentRead at h
  split_ifs at h
  injection h with h
  exact h.symm

/-- Another agent's write that answers stores one `Valid` byte and changes nothing else (R70). -/
theorem agentWrite_next {a : Nat} {v : Byte} {s t : State} (h : agentWrite a v s = .next t) :
    s.valid a = true ∧ t = { s with mem := Memory.write s.mem a v } := by
  unfold agentWrite at h
  split_ifs at h with hv
  injection h with h
  exact ⟨by simpa using hv, h.symm⟩

/-! ### `DESC` (R22) -/

/-- A write to an index below 16 sets that `DESC` word and nothing else (R22, R200). -/
theorem regWrite_of_lt {i : Nat} (hi : i < 16) (v : Word) (s : State) :
    regWrite i v s = { s with desc := s.desc.set i v } := dif_pos hi

theorem regRead_of_lt {i : Nat} (hi : i < 16) (s : State) : regRead i s = s.desc[i] := dif_pos hi

@[simp] theorem doStart_desc (s : State) : (doStart s).desc = s.desc := by
  rcases doStart_cases s with ⟨_, _, h⟩ | ⟨_, h⟩ <;> rw [h]

@[simp] theorem doClr_desc (s : State) : (doClr s).desc = s.desc := by
  rcases doClr_cases s with ⟨_, h⟩ | ⟨_, h⟩ <;> rw [h]

/-- A write to `CTRL` or above leaves `DESC` alone. -/
theorem regWrite_desc_of_ge {i : Nat} (hi : 16 ≤ i) (v : Word) (s : State) : (regWrite i v s).desc = s.desc := by
  rcases regWrite_cases i v s with ⟨hlt, _⟩ | ⟨_, clr, start, h⟩ | ⟨_, h⟩
  · omega
  · rw [h]
    cases clr <;> cases start <;> simp
  · rw [h]

/-- The engine never writes `DESC` (R22). -/
theorem engineTurn_desc {s t : State} (h : engineTurn s = .next t) : t.desc = s.desc := by
  rcases engineTurn_next h with ⟨_, rfl⟩ | ⟨_, e, rfl⟩ | ⟨_, i, _, _, _, rfl⟩
  · rfl
  · rfl
  · obtain ⟨⟨hdesc, _⟩, _⟩ := effectOf_frame i s
    exact hdesc

/-- No action but a host write below 16 and reset changes `DESC` (R22). -/
theorem perform_desc {a : Action} {s t : State} (hw : ∀ i v, a = .regWrite i v → 16 ≤ i) (hr : a ≠ .reset)
    (h : perform a s = .next t) : t.desc = s.desc := by
  cases a with
  | regWrite i v =>
    injection h with h
    exact h ▸ regWrite_desc_of_ge (hw i v rfl) v s
  | regRead i =>
    injection h with h
    exact h ▸ hostRead_desc i s
  | wait =>
    simp only [perform] at h
    split at h
    · injection h with h
      exact h ▸ hostRead_desc 17 s
    · exact (engineTurn_desc h :)
  | memRead a => rw [agentRead_next h]
  | memWrite a v => rw [(agentWrite_next h).2]
  | reset => exact absurd rfl hr
  | engine => exact engineTurn_desc h

/-- Settles O32: a `DESC` write is one vector update, and of the other steps none but reset touches `desc` (`perform_desc`). -/
theorem descHoldsLastHostWrite : Obligations.DescHoldsLastHostWrite := by
  unfold Obligations.DescHoldsLastHostWrite
  refine ⟨?_, ?_, ?_⟩
  · intro s i j v hi hj
    rw [regWrite_of_lt hi, regRead_of_lt hj, regRead_of_lt hj, Vector.getElem_set]
    simp only [eq_comm]
  · intro s i v hi
    rw [regWrite_of_lt hi]
    exact ⟨rfl, rfl, rfl, rfl⟩
  · intro s t h hw hr
    unfold step at h
    split at h
    · exact engineTurn_desc h
    · rename_i a rest ha
      exact (perform_desc (fun i v e => hw i v rest (e ▸ ha)) (fun e => hr rest (e ▸ ha)) h :)

/-! ### Building blocks of the invariant -/

/-- The codes of R221 to R227. -/
theorem errorKind_code_range (e : ErrorKind) : 1 ≤ e.code.toNat ∧ e.code.toNat ≤ 7 := by
  cases e <;> decide

/-- Where no error is shown, `STATUS` asks only that a busy engine is not done (R31). -/
theorem invariant_of_no_error {s : State} (herr : s.err = false) (hcode : s.errCode = 0)
    (hbusy : s.busy = true → s.done = false ∧ s.cmd ∈ s.inFlight) (hwf : Memory.wf s.mem = true)
    (hspace : ∀ p ∈ s.mem, p.1 < 4294967296) (htmp : s.tmp.rows = []) : Invariant s where
  status_legal := ⟨fun hb => ⟨(hbusy hb).1, herr⟩, fun he => by simp [herr] at he, fun _ => hcode⟩
  mem_canonical := hwf
  mem_inSpace := hspace
  tmp_unspecified := htmp
  busy_inFlight hb := (hbusy hb).2
  err_recorded he := by simp [herr] at he

/-- A command that passes its checks stores inside the 32-bit space (R50, R227). -/
theorem storeBlock_inSpace {i : Instr} (hc : ChecksPass i) (P : Nat → Nat → Sample) {s : State}
    (h : ∀ p ∈ s.mem, p.1 < 4294967296) : ∀ p ∈ (storeBlock (blockOf i) P s).mem, p.1 < 4294967296 := by
  obtain ⟨_, haddr, _⟩ := hc
  intro p hp
  rcases storeBlock_mem_cases _ P s p hp with hin | hold
  · exact_mod_cast (haddr _ (.inr hin)).2
  · exact h p hold

/-! ### Every operation keeps the invariant -/

section
variable {s : State} (h : Invariant s)
include h

/-- The invariant does not speak of `DESC`, the agenda or the reply. -/
theorem invariant_withUnread (d : Descriptor) (l : List Action) (r : Option Word) :
    Invariant { s with desc := d, agenda := l, reply := r } :=
  ⟨h.status_legal, h.mem_canonical, h.mem_inSpace, h.tmp_unspecified, h.busy_inFlight, h.err_recorded⟩

theorem invariant_errorEntry (e : ErrorKind) : Invariant (errorEntry e s) where
  status_legal := ⟨by simp, fun _ => ⟨rfl, errorKind_code_range e⟩, by simp⟩
  mem_canonical := h.mem_canonical
  mem_inSpace := h.mem_inSpace
  tmp_unspecified := h.tmp_unspecified
  busy_inFlight := by simp
  err_recorded := by simp

/-- Completion (R207): a busy engine shows no error, and none is entered. -/
theorem invariant_complete_effectOf (hb : s.busy = true) {i : Instr} (hc : ChecksPass i) :
    Invariant (complete (effectOf i s)) := by
  obtain ⟨hbusy, _, hcode⟩ := h.status_legal
  have herr : s.err = false := (hbusy hb).2
  obtain ⟨⟨_, herr', hcode', _⟩, _⟩ := effectOf_frame i s
  refine invariant_of_no_error (herr'.trans herr) (hcode'.trans (hcode herr)) (by simp) ?_ ?_
    (effectOf_tmp i s h.tmp_unspecified)
  · rw [complete_mem, effectOf_mem]
    exact storeBlock_wf _ _ s h.mem_canonical
  · rw [complete_mem, effectOf_mem]
    exact storeBlock_inSpace hc _ h.mem_inSpace

theorem invariant_exec (hb : s.busy = true) {t : State} {i : Instr} (he : exec i s = .next t) : Invariant t := by
  rcases exec_next he with ⟨e, _, rfl⟩ | ⟨hc, _, rfl⟩
  · exact invariant_errorEntry h e
  · exact invariant_complete_effectOf h hb hc

/-- An accepted `START` finds no error, clears `DONE` and puts the latched command in flight (R202, R256). -/
theorem invariant_doStart : Invariant (doStart s) := by
  rcases doStart_cases s with ⟨_, herr, he⟩ | ⟨_, he⟩ <;> rw [he]
  · obtain ⟨_, _, hcode⟩ := h.status_legal
    exact invariant_of_no_error herr (hcode herr) (by simp) h.mem_canonical h.mem_inSpace h.tmp_unspecified
  · exact h

theorem invariant_doClr : Invariant (doClr s) := by
  rcases doClr_cases s with ⟨hb, he⟩ | ⟨_, he⟩ <;> rw [he]
  · exact invariant_of_no_error rfl rfl (by simp [hb]) h.mem_canonical h.mem_inSpace h.tmp_unspecified
  · exact h

theorem invariant_regWrite (i : Nat) (v : Word) : Invariant (regWrite i v s) := by
  rcases regWrite_cases i v s with ⟨hi, he⟩ | ⟨_, clr, start, he⟩ | ⟨_, he⟩ <;> rw [he]
  · exact invariant_withUnread h (s.desc.set i v) s.agenda s.reply
  · have hclr : Invariant (if clr then doClr s else s) := by
      cases clr
      · exact h
      · exact invariant_doClr h
    cases start
    · exact hclr
    · exact invariant_doStart hclr
  · exact h

/-- A read that ends the window of R258 returns `DONE` = 1, so no command is running then. -/
theorem invariant_hostRead (i : Nat) : Invariant (hostRead i s) where
  status_legal := h.status_legal
  mem_canonical := h.mem_canonical
  mem_inSpace := h.mem_inSpace
  tmp_unspecified := h.tmp_unspecified
  busy_inFlight hb := by
    have hdone : s.done = false := (h.status_legal.1 hb).1
    simpa [hdone] using h.busy_inFlight hb
  err_recorded := h.err_recorded

/-- A `Valid` byte lies in the 32-bit space (R50), so storing it keeps memory inside. -/
theorem invariant_memWrite {a : Nat} (v : Byte) (hv : s.valid a = true) :
    Invariant { s with mem := Memory.write s.mem a v } where
  status_legal := h.status_legal
  mem_canonical := wf_write _ a v h.mem_canonical
  mem_inSpace p hp := by
    rcases mem_write _ a v p hp with he | hold
    · have := (valid_bounds hv).2
      omega
    · exact h.mem_inSpace p hold
  tmp_unspecified := h.tmp_unspecified
  busy_inFlight := h.busy_inFlight
  err_recorded := h.err_recorded

/-- Reset clears `STATUS`; a command it cuts off has passed its checks, so the bytes it leaves are in the space (R252). -/
theorem invariant_resetInput : Invariant (resetInput s) := by
  rcases resetInput_cases s with ⟨_, he⟩ | ⟨_, i, hi, he⟩ <;> rw [he]
  · exact invariant_of_no_error rfl rfl (by simp) h.mem_canonical h.mem_inSpace rfl
  · obtain ⟨_, hc⟩ := runnable_some hi
    exact invariant_of_no_error rfl rfl (by simp) (storeBlock_wf _ _ s h.mem_canonical)
      (storeBlock_inSpace hc _ h.mem_inSpace) rfl

end

/-! ### The invariant and what `STATUS` shows -/

/-- Settles O49: after reset nothing runs, no error is shown and no memory is listed. -/
theorem resetMeetsInvariant : Obligations.ResetMeetsInvariant := by
  unfold Obligations.ResetMeetsInvariant
  exact invariant_of_no_error rfl rfl (by simp [State.reset]) rfl (by simp [State.reset]) rfl

/-- Settles O50, by the induction over every step (`step_keeps`), one lemma per operation. -/
theorem stepKeepsInvariant : Obligations.StepKeepsInvariant := by
  unfold Obligations.StepKeepsInvariant
  exact step_keeps Invariant
    (hAgenda := fun s l h => invariant_withUnread h s.desc l s.reply)
    (hExec := fun _ _ _ h hb _ he => invariant_exec h hb he)
    (hIllegal := fun _ h _ => invariant_errorEntry h .illegal)
    (hWrite := fun _ i v h => invariant_regWrite h i v)
    (hRead := fun _ i h => invariant_hostRead h i)
    (hReply := fun s r h => invariant_withUnread h s.desc s.agenda r)
    (hMem := fun _ _ v h hv => invariant_memWrite h v hv)
    (hReset := fun _ h => invariant_resetInput h)

/-- Settles O51: an error shown fixes the other two bits and bounds its code; without one the code is 0 and `BUSY` excludes
`DONE`. -/
theorem statusTakesListedValues : Obligations.StatusTakesListedValues := by
  unfold Obligations.StatusTakesListedValues
  intro s h
  obtain ⟨hbusy, herror, hclear⟩ := h.status_legal
  unfold State.status statusOf
  cases he : s.err with
  | true =>
    obtain ⟨hdone, hlow, hhigh⟩ := herror he
    have hb : s.busy = false :=
      Bool.eq_false_iff.mpr fun hb => Bool.false_ne_true ((hbusy hb).2.symm.trans he)
    refine .inr (.inr (.inr ⟨s.errCode.toNat, hlow, hhigh, ?_⟩))
    simp [hb, hdone, Nat.mul_comm]
  | false =>
    rw [hclear he]
    cases hb : s.busy with
    | true =>
      obtain ⟨hdone, _⟩ := hbusy hb
      rw [hdone]
      exact .inr (.inl rfl)
    | false =>
      cases s.done with
      | true => exact .inr (.inr (.inl rfl))
      | false => exact .inl rfl

end Sys2Proof.Machine
end

section
/-! PROOFS. Memory (20_memory.md): a launch that breaks its contract stops, and which accesses of other agents are races. -/

namespace Sys2Proof.Machine

/-! ### The launch of a command that passes its checks (R53, R72) -/

/-- With its checks passed, a command's outcome is that of its launch (R205). -/
theorem exec_eq_launch {i : Instr} (hc : ChecksPass i) (s : State) :
    exec i s = launch i (fun t => complete (effectOf i t)) s := by
  rw [exec_eq]
  unfold runCommand
  rw [(firstFailingCheck_none_iff i).mpr hc]

/-- R53, U1. -/
theorem launch_of_not_footprintValid {i : Instr} {s : State} (hv : ¬ FootprintValid i s) (effect : State → State) :
    launch i effect s = .fault .launchMemory := by
  rcases launch_cases i effect s with ⟨⟨h, _⟩, _⟩ | ⟨_, he⟩ | ⟨h, _⟩
  · exact absurd h hv
  · exact he
  · exact absurd ((footprintValid_iff i s).mp h) hv

/-- R72, U5. -/
theorem launch_of_overlap {i : Instr} {s : State} (hv : FootprintValid i s) {a : Int} (hr : InSource i a)
    (hw : InWriteSet (blockOf i) a) (effect : State → State) : launch i effect s = .refused .overlap := by
  rcases launch_cases i effect s with ⟨⟨_, h⟩, _⟩ | ⟨h, _⟩ | ⟨_, _, he⟩
  · exact absurd hw (h a hr)
  · exact absurd ((footprintValid_iff i s).mpr hv) (Bool.eq_false_iff.mp h)
  · exact he

/-- Settles O26: with the checks passed the launch decides, and each hypothesis leaves one of its three outcomes
(`launch_cases`). -/
theorem brokenContractStops : Obligations.BrokenContractStops := by
  unfold Obligations.BrokenContractStops
  intro i s hc
  rw [exec_eq_launch hc]
  constructor
  · rintro ⟨a, ha, hinvalid⟩
    exact launch_of_not_footprintValid (fun hv => Bool.false_ne_true (hinvalid.symm.trans (hv a ha))) _
  · rintro hv ⟨a, hr, hw⟩
    exact launch_of_overlap hv hr hw _

/-! ### Commands in flight -/

/-- A command counts in the race rule exactly where its latch decodes to it and its checks pass (assumption 13). -/
theorem runnable_eq_some_iff {d : Descriptor} {i : Instr} : runnable d = some i ↔ decode d = .ok i ∧ ChecksPass i :=
  ⟨runnable_some, fun ⟨hd, hc⟩ => runnable_of_pass hd hc⟩

/-- No command in flight writes the byte at `a`, as R61 and the checks say it. -/
theorem writtenInFlight_false_iff (s : State) (a : Nat) :
    writtenInFlight s a = false ↔
      ∀ d ∈ s.inFlight, ∀ i, decode d = .ok i → ChecksPass i → ¬ InWriteSet (blockOf i) (a : Int) := by
  rw [← Bool.not_eq_true, writtenInFlight_iff]
  simp only [runnable_eq_some_iff, not_exists, not_and, and_imp]

/-- No command in flight reads the byte at `a`, as R62 to R64 and the checks say it. -/
theorem readInFlight_false_iff (s : State) (a : Nat) :
    readInFlight s a = false ↔ ∀ d ∈ s.inFlight, ∀ i, decode d = .ok i → ChecksPass i → ¬ InReadSet i (a : Int) := by
  rw [← Bool.not_eq_true, readInFlight_iff]
  simp only [runnable_eq_some_iff, not_exists, not_and, and_imp]

/-! ### The outcomes of another agent's access to a `Valid` byte (R70) -/

theorem agentRead_of_written {a : Nat} {s : State} (hv : s.valid a = true) (hw : writtenInFlight s a = true) :
    agentRead a s = .fault .race := by
  simp [agentRead, hv, hw]

theorem agentRead_of_not_written {a : Nat} {s : State} (hv : s.valid a = true) (hw : writtenInFlight s a = false) :
    agentRead a s = .next { s with reply := some ((Memory.read s.mem a).setWidth 32) } := by
  simp [agentRead, hv, hw]

theorem agentWrite_of_used {a : Nat} {v : Byte} {s : State} (hv : s.valid a = true)
    (hu : readInFlight s a = true ∨ writtenInFlight s a = true) : agentWrite a v s = .fault .race := by
  simp [agentWrite, hv, hu.symm]

theorem agentWrite_of_not_used {a : Nat} {v : Byte} {s : State} (hv : s.valid a = true)
    (hr : readInFlight s a = false) (hw : writtenInFlight s a = false) :
    agentWrite a v s = .next { s with mem := Memory.write s.mem a v } := by
  simp [agentWrite, hv, hr, hw]

/-! ### The step in which another agent's access comes next -/

theorem step_memRead {s : State} {a : Nat} {rest : List Action} (h : s.agenda = .memRead a :: rest) :
    step s = agentRead a { s with agenda := rest } := by
  simp [step, h, perform]

theorem step_memWrite {s : State} {a : Nat} {v : Byte} {rest : List Action} (h : s.agenda = .memWrite a v :: rest) :
    step s = agentWrite a v { s with agenda := rest } := by
  simp [step, h, perform]

/-- Settles O47: the invariant puts the running command in flight, so its sets count in the race rule; where no command in
flight has the byte in the sets that matter, the access answers. -/
theorem conflictingAccessIsRace : Obligations.ConflictingAccessIsRace := by
  unfold Obligations.ConflictingAccessIsRace
  refine ⟨?race, ?write, ?read⟩
  case race =>
    intro s i a v rest hinv hbusy hd hc hv
    have hflight : s.cmd ∈ s.inFlight := hinv.busy_inFlight hbusy
    have hrun : runnable s.cmd = some i := runnable_of_pass hd hc
    have hread (h : InReadSet i (a : Int)) : readInFlight { s with agenda := rest } a = true :=
      (readInFlight_iff _ a).mpr ⟨s.cmd, hflight, i, hrun, h⟩
    have hwritten (h : InWriteSet (blockOf i) (a : Int)) : writtenInFlight { s with agenda := rest } a = true :=
      (writtenInFlight_iff _ a).mpr ⟨s.cmd, hflight, i, hrun, h⟩
    constructor
    · intro hset hnext
      rw [step_memWrite hnext]
      exact agentWrite_of_used hv (hset.imp hread hwritten)
    · intro hset hnext
      rw [step_memRead hnext]
      exact agentRead_of_written hv (hwritten hset)
  case write =>
    intro s a v rest hv hfree hnext
    have hread : readInFlight { s with agenda := rest } a = false :=
      (readInFlight_false_iff _ a).mpr fun d hd i hi hc => (hfree d hd i hi hc).1
    have hwritten : writtenInFlight { s with agenda := rest } a = false :=
      (writtenInFlight_false_iff _ a).mpr fun d hd i hi hc => (hfree d hd i hi hc).2
    rw [step_memWrite hnext]
    exact ⟨_, agentWrite_of_not_used hv hread hwritten, read_write_self s.mem a v,
      fun b hb => read_write_of_ne s.mem v hb.symm⟩
  case read =>
    intro s a rest hv hfree hnext
    have hwritten : writtenInFlight { s with agenda := rest } a = false := (writtenInFlight_false_iff _ a).mpr hfree
    rw [step_memRead hnext]
    exact ⟨_, agentRead_of_not_written hv hwritten, rfl, rfl⟩

end Sys2Proof.Machine
end

section
/-! PROOFS. Encoding (30_encoding.md): what `decode` can answer, the two round trips, the illegal descriptors, the
pseudo-instructions, and the intra fields a mode does not use. -/

namespace Sys2Proof.Machine

/-! ### Everything `decode` can answer (R89, R93) -/

/-- A legal INTER descriptor: none of the cases of R93 holds of its bits. -/
def InterLegal (d : Descriptor) : Prop :=
  field d[0] 3 0 = 1 ∧ (field d[0] 31 24 = 0 ∧ field d[0] 15 9 = 0) ∧
  (field d[0] 5 4 = 0 ∧ field d[0] 8 7 = 0 ∧ field d[0] 23 16 = 0) ∧ d[7] = 0

/-- A legal INTRA descriptor: none of the cases of R93 holds of its bits. -/
def IntraLegal (d : Descriptor) : Prop :=
  field d[0] 3 0 = 2 ∧ (field d[0] 31 24 = 0 ∧ field d[0] 15 9 = 0) ∧ field d[0] 6 6 = 0 ∧ d[7] = 0 ∧
  (d[6] = 0 ∧ d[8] = 0 ∧ d[9] = 0 ∧ d[10] = 0 ∧ d[11] = 0 ∧ d[12] = 0 ∧ d[13] = 0 ∧ d[14] = 0 ∧ d[15] = 0)

/-- The INTER command with bit `BLEND` (R81, R88). -/
def interOfBlend (blend : Nat) (c : InterCmd) : Instr := if blend = 0 then .interPut c else .interAvg c

theorem decode_of_interLegal {d : Descriptor} (h : InterLegal d) :
    decode d = .ok (interOfBlend (field d[0] 6 6) (interFieldsOf d)) := by
  obtain ⟨hop, ⟨hb1, hb2⟩, ⟨hf1, hf2, hf3⟩, hword⟩ := h
  simp only [decode, hop, hb1, hb2, hf1, hf2, hf3, hword, interOfBlend]
  by_cases hblend : field d[0] 6 6 = 0 <;> simp [hblend]

theorem decode_of_intraLegal {d : Descriptor} (h : IntraLegal d) :
    decode d = .ok (intraOfMode (field d[0] 5 4) (intraFieldsOf d)) := by
  obtain ⟨hop, ⟨hb1, hb2⟩, hblend, hword, h6, h8, h9, h10, h11, h12, h13, h14, h15⟩ := h
  simp [decode, hop, hb1, hb2, hblend, hword, h6, h8, h9, h10, h11, h12, h13, h14, h15]

/-- What `decode` accepts is legal: on every other path of its tests it answers one of the reasons of R93. -/
theorem legal_of_decode {d : Descriptor} {i : Instr} (h : decode d = .ok i) : InterLegal d ∨ IntraLegal d := by
  unfold decode at h
  split_ifs at h with hop hbits hfields hword hblend hop' hbits hblend hword hwords
  · simp only [not_or, not_not] at hbits hfields hword
    exact .inl ⟨hop, hbits, hfields, hword⟩
  · simp only [not_or, not_not] at hbits hfields hword
    exact .inl ⟨hop, hbits, hfields, hword⟩
  · simp only [not_or, not_not] at hbits hblend hword hwords
    exact .inr ⟨hop', hbits, hblend, hword, hwords⟩

/-- A descriptor that decodes is legal, and decodes to the fields it holds (R89). -/
theorem decode_ok_cases {d : Descriptor} {i : Instr} (h : decode d = .ok i) :
    (InterLegal d ∧ i = interOfBlend (field d[0] 6 6) (interFieldsOf d)) ∨
    (IntraLegal d ∧ i = intraOfMode (field d[0] 5 4) (intraFieldsOf d)) := by
  rcases legal_of_decode h with hl | hl
  · rw [decode_of_interLegal hl] at h
    exact .inl ⟨hl, (Except.ok.inj h).symm⟩
  · rw [decode_of_intraLegal hl] at h
    exact .inr ⟨hl, (Except.ok.inj h).symm⟩

/-- `decode` rejects exactly the descriptors that are legal for neither kind of command (R93). -/
theorem decode_error_iff (d : Descriptor) : (∃ r, decode d = .error r) ↔ ¬ InterLegal d ∧ ¬ IntraLegal d := by
  constructor
  · rintro ⟨r, hr⟩
    refine ⟨fun h => ?_, fun h => ?_⟩
    · rw [decode_of_interLegal h] at hr
      cases hr
    · rw [decode_of_intraLegal h] at hr
      cases hr
  · rintro ⟨hinter, hintra⟩
    cases hd : decode d with
    | error r => exact ⟨r, rfl⟩
    | ok i => exact absurd (legal_of_decode hd) (not_or.mpr ⟨hinter, hintra⟩)

/-! ### Word 0 and its fields (R81) -/

/-- A word is the sum of the fields of R81 at their places. -/
theorem toNat_eq_word0_fields (v : Word) :
    v.toNat = field v 3 0 + field v 5 4 * 16 + field v 6 6 * 64 + field v 7 7 * 128 + field v 8 8 * 256 +
      field v 15 9 * 512 + field v 23 16 * 65536 + field v 31 24 * 16777216 := by
  have := v.isLt
  simp only [field, Nat.reducePow, Nat.reduceSub, Nat.reduceAdd]
  omega

/-- Bits 8:7 are the two flags. -/
theorem field_flags (v : Word) : field v 8 7 = field v 7 7 + field v 8 8 * 2 := by
  simp only [field, Nat.reducePow, Nat.reduceSub, Nat.reduceAdd]
  omega

/-- The fields in bits 6:0. -/
theorem field_low_bits (v : Word) :
    field v 3 0 = field v 6 0 % 16 ∧ field v 5 4 = field v 6 0 / 16 % 4 ∧ field v 6 6 = field v 6 0 / 64 := by
  simp only [field, Nat.reducePow, Nat.reduceSub, Nat.reduceAdd]
  omega

/-! ### The round trip from a command (R103) -/

theorem interLegal_encodeInter {blend : Nat} (hblend : blend ≤ 1) (c : InterCmd) :
    InterLegal (encodeInter blend c) ∧ field (encodeInter blend c)[0] 6 6 = blend := by
  obtain ⟨hlow, hb1, hb2, hword⟩ := Laws.ControlWord.inter_words blend hblend c
  obtain ⟨hop, hmode, hbit⟩ := field_low_bits (encodeInter blend c)[0]
  have hupper : field (encodeInter blend c)[0] 8 7 = 0 ∧ field (encodeInter blend c)[0] 23 16 = 0 := by
    simp [encodeInter, field]
    omega
  exact ⟨⟨by omega, ⟨hb2, hb1⟩, ⟨by omega, hupper⟩, hword⟩, by omega⟩

theorem intraLegal_encodeIntra {m : Nat} (hm : m ≤ 3) {c : IntraCmd} (h : c.wellFormed = true) :
    IntraLegal (encodeIntra m c) ∧ field (encodeIntra m c)[0] 5 4 = m := by
  obtain ⟨hlow, hb1, hb2, hword⟩ := Laws.ControlWord.intra_words m hm c h
  obtain ⟨hop, hmode, hbit⟩ := field_low_bits (encodeIntra m c)[0]
  exact ⟨⟨by omega, ⟨hb2, hb1⟩, by omega, hword, ⟨rfl, rfl, rfl, rfl, rfl, rfl, rfl, rfl, rfl⟩⟩, by omega⟩

theorem decode_encodeInter {blend : Nat} (hblend : blend ≤ 1) {c : InterCmd} (h : c.wellFormed = true) :
    decode (encodeInter blend c) = .ok (interOfBlend blend c) := by
  obtain ⟨hlegal, hbit⟩ := interLegal_encodeInter hblend c
  rw [decode_of_interLegal hlegal, hbit, interFieldsOf_encodeInter blend h]

theorem decode_encodeIntra {m : Nat} (hm : m ≤ 3) {c : IntraCmd} (h : c.wellFormed = true) :
    decode (encodeIntra m c) = .ok (intraOfMode m c) := by
  obtain ⟨hlegal, hmode⟩ := intraLegal_encodeIntra hm h
  rw [decode_of_intraLegal hlegal, hmode, intraFieldsOf_encodeIntra hm h]

/-- Settles O27: the encoded words are legal (`interLegal_encodeInter`, `intraLegal_encodeIntra`) and hold the command's fields. -/
theorem decodeOfEncode : Obligations.DecodeOfEncode := by
  unfold Obligations.DecodeOfEncode
  intro i h
  cases i with
  | interPut c => exact decode_encodeInter (blend := 0) (by omega) h
  | interAvg c => exact decode_encodeInter (blend := 1) (by omega) h
  | intraV c => exact decode_encodeIntra (m := 0) (by omega) h
  | intraH c => exact decode_encodeIntra (m := 1) (by omega) h
  | intraDc c => exact decode_encodeIntra (m := 2) (by omega) h
  | intraTm c => exact decode_encodeIntra (m := 3) (by omega) h

/-! ### The round trip from a descriptor (R89, R103) -/

theorem field_lt (v : Word) (hi lo : Nat) : field v hi lo < 2 ^ (hi - lo + 1) :=
  Nat.mod_lt _ (by positivity)

theorem kernelOfWords_wellFormed (w0 w1 w2 w3 : Word) : (kernelOfWords w0 w1 w2 w3).wellFormed = true := by
  simp [Kernel.wellFormed, Kernel.taps, kernelOfWords, coeffWellFormed_sext16, field_low_lt, field_high_lt]

theorem interFieldsOf_wellFormed (d : Descriptor) : (interFieldsOf d).wellFormed = true := by
  simp only [InterCmd.wellFormed, Bool.and_eq_true, decide_eq_true_iff]
  exact ⟨⟨⟨⟨⟨⟨⟨⟨⟨field_low_lt _, field_high_lt _⟩, d[2].isLt⟩, d[3].isLt⟩, d[4].isLt⟩, d[5].isLt⟩, field_low_lt _⟩,
    field_high_lt _⟩, kernelOfWords_wellFormed _ _ _ _⟩, kernelOfWords_wellFormed _ _ _ _⟩

theorem intraFieldsOf_wellFormed (d : Descriptor) : (intraFieldsOf d).wellFormed = true := by
  simp only [IntraCmd.wellFormed, Bool.and_eq_true, decide_eq_true_iff]
  exact ⟨⟨⟨⟨⟨⟨field_lt _ 23 16, field_low_lt _⟩, field_high_lt _⟩, d[2].isLt⟩, d[3].isLt⟩, d[4].isLt⟩, d[5].isLt⟩

/-- A descriptor is its sixteen words in order. -/
theorem descriptor_eq_words (d : Descriptor) :
    #v[d[0], d[1], d[2], d[3], d[4], d[5], d[6], d[7], d[8], d[9], d[10], d[11], d[12], d[13], d[14], d[15]] = d := by
  ext i hi
  interval_cases i <;> rfl

theorem interWord0_eq {d : Descriptor} (h : InterLegal d) : BitVec.ofNat 32 (1 + field d[0] 6 6 * 64) = d[0] := by
  obtain ⟨hop, ⟨hb1, hb2⟩, ⟨hmode, hflags, hcorner⟩, _⟩ := h
  have hsum := toNat_eq_word0_fields d[0]
  have hsplit := field_flags d[0]
  rw [show 1 + field d[0] 6 6 * 64 = d[0].toNat by omega, BitVec.ofNat_toNat, BitVec.setWidth_eq]

/-- A flag bit survives its Bool. -/
theorem toNat_field_beq_one {n : Nat} (h : n < 2) : (n == 1).toNat = n := by
  interval_cases n <;> rfl

theorem intraWord0_eq {d : Descriptor} (h : IntraLegal d) :
    BitVec.ofNat 32 (2 + field d[0] 5 4 * 16 + (intraFieldsOf d).hasAbove.toNat * 128 +
      (intraFieldsOf d).hasLeft.toNat * 256 + (intraFieldsOf d).corner * 65536) = d[0] := by
  obtain ⟨hop, ⟨hb1, hb2⟩, hblend, _⟩ := h
  have hsum := toNat_eq_word0_fields d[0]
  have habove : (intraFieldsOf d).hasAbove.toNat = field d[0] 7 7 := toNat_field_beq_one (field_lt d[0] 7 7)
  have hleft : (intraFieldsOf d).hasLeft.toNat = field d[0] 8 8 := toNat_field_beq_one (field_lt d[0] 8 8)
  have hcorner : (intraFieldsOf d).corner = field d[0] 23 16 := rfl
  rw [habove, hleft, hcorner,
    show 2 + field d[0] 5 4 * 16 + field d[0] 7 7 * 128 + field d[0] 8 8 * 256 + field d[0] 23 16 * 65536 = d[0].toNat by omega,
    BitVec.ofNat_toNat, BitVec.setWidth_eq]

theorem encodeInter_interFieldsOf {d : Descriptor} (h : InterLegal d) :
    encodeInter (field d[0] 6 6) (interFieldsOf d) = d := by
  have hfx := kernelWord_kernelOfWords d[8] d[9] d[10] d[11]
  have hfy := kernelWord_kernelOfWords d[12] d[13] d[14] d[15]
  have hword0 := interWord0_eq h
  obtain ⟨_, _, _, hword⟩ := h
  refine Eq.trans ?_ (descriptor_eq_words d)
  simp [encodeInter, hword0, interFieldsOf, halves_fields, hword, hfx, hfy]

theorem encodeIntra_intraFieldsOf {d : Descriptor} (h : IntraLegal d) :
    encodeIntra (field d[0] 5 4) (intraFieldsOf d) = d := by
  have hword0 := intraWord0_eq h
  obtain ⟨_, _, _, h7, h6, h8, h9, h10, h11, h12, h13, h14, h15⟩ := h
  refine Eq.trans ?_ (descriptor_eq_words d)
  rw [encodeIntra, hword0]
  simp [intraFieldsOf, halves_fields, *]

theorem interOfBlend_spec {blend : Nat} (h : blend < 2) (c : InterCmd) :
    (interOfBlend blend c).wellFormed = c.wellFormed ∧ encode (interOfBlend blend c) = encodeInter blend c := by
  interval_cases blend <;> exact ⟨rfl, rfl⟩

theorem intraOfMode_spec {m : Nat} (h : m < 4) (c : IntraCmd) :
    (intraOfMode m c).wellFormed = c.wellFormed ∧ encode (intraOfMode m c) = encodeIntra m c := by
  interval_cases m <;> exact ⟨rfl, rfl⟩

/-- What decodes is in the ranges of R88 and encodes to the same words. -/
theorem wellFormed_and_encode_of_decode {d : Descriptor} {i : Instr} (h : decode d = .ok i) :
    i.wellFormed = true ∧ encode i = d := by
  rcases decode_ok_cases h with ⟨hlegal, rfl⟩ | ⟨hlegal, rfl⟩
  · obtain ⟨hwf, hencode⟩ := interOfBlend_spec (field_lt d[0] 6 6) (interFieldsOf d)
    exact ⟨hwf.trans (interFieldsOf_wellFormed d), hencode.trans (encodeInter_interFieldsOf hlegal)⟩
  · obtain ⟨hwf, hencode⟩ := intraOfMode_spec (field_lt d[0] 5 4) (intraFieldsOf d)
    exact ⟨hwf.trans (intraFieldsOf_wellFormed d), hencode.trans (encodeIntra_intraFieldsOf hlegal)⟩

/-- Settles O28: a legal descriptor is the words of the fields it holds, so `encode` undoes `decode`. -/
theorem encodeOfDecode : Obligations.EncodeOfDecode := by
  unfold Obligations.EncodeOfDecode
  refine ⟨fun d i h => wellFormed_and_encode_of_decode h, ?_⟩
  intro d e i hd he
  calc d = encode i := (wellFormed_and_encode_of_decode hd).2.symm
    _ = e := (wellFormed_and_encode_of_decode he).2

/-! ### Words written out (R87, R91) -/

/-- The words of a well-formed command decode to it. -/
theorem decode_of_encode_eq {d : Descriptor} {i : Instr} (hwf : i.wellFormed = true) (h : encode i = d) :
    decode d = .ok i :=
  h ▸ decodeOfEncode i hwf

/-- Settles O30: each row of words is the encoding of its command. -/
theorem writtenOutWordsDecode : Obligations.WrittenOutWordsDecode := by
  unfold Obligations.WrittenOutWordsDecode
  refine ⟨?_, ?_, ?_, ?_, ?_, ?_⟩ <;> exact decode_of_encode_eq (by decide) (by decide)

/-! ### Illegal descriptors (R93) -/

/-- An illegal latch is `ERR_ILLEGAL` and nothing else (R205, R221). -/
theorem execLatch_of_illegal {s : State} {r : IllegalReason} (h : decode s.cmd = .error r) :
    execLatch s = .next (errorEntry .illegal s) := by
  simp [execLatch, h]

/-- Settles O29: rejected is legal for neither kind (`decode_error_iff`), and the cases (a) to (f) are the ways to miss that. -/
theorem illegalDescriptors : Obligations.IllegalDescriptors := by
  unfold Obligations.IllegalDescriptors
  constructor
  · intro d
    have hflags : field d[0] 8 7 = 0 ↔ field d[0] 7 7 = 0 ∧ field d[0] 8 8 = 0 := by
      have := field_flags d[0]
      omega
    rw [decode_error_iff, InterLegal, IntraLegal, hflags]
    by_cases hinter : field d[0] 3 0 = 1
    · grind
    · by_cases hintra : field d[0] 3 0 = 2
      · grind
      · grind
  · intro s r h
    exact ⟨_, execLatch_of_illegal h, rfl, rfl, rfl⟩

/-! ### Pseudo-instructions (R101) -/

/-- A line of allowed operands, none given twice, assembles to the command it names, if its fields hold it. -/
theorem assemble_eq_some {l : AsmLine} {i : Instr}
    (hnames : (((l.operands.map fun p => p.1).all fun n => decide (n ∈ asmAllowed l.mnemonic)) &&
      decide (l.operands.map fun p => p.1).Nodup) = true)
    (hcommand : asmCommand l = some i) (hwf : i.wellFormed = true) : assemble l = some i := by
  rw [assemble, if_pos hnames, hcommand, Option.filter_some, if_pos hwf]

/-- Any two kernels that fit their words leave a command in the ranges of R88. -/
theorem wellFormed_withKernels {c : InterCmd} (h : c.wellFormed = true) {fx fy : Kernel} (hx : fx.wellFormed = true)
    (hy : fy.wellFormed = true) : ({ c with fx := fx, fy := fy } : InterCmd).wellFormed = true := by
  simp only [InterCmd.wellFormed, Bool.and_eq_true] at h ⊢
  obtain ⟨⟨h, _⟩, _⟩ := h
  exact ⟨⟨h, hx⟩, hy⟩

theorem fx_wellFormed {c : InterCmd} (h : c.wellFormed = true) : c.fx.wellFormed = true := by
  simp only [InterCmd.wellFormed, Bool.and_eq_true] at h
  obtain ⟨⟨_, hx⟩, _⟩ := h
  exact hx

/-- Settles O31: each line's operands are allowed and name the expansion. -/
theorem pseudoInstructionsExpand : Obligations.PseudoInstructionsExpand := by
  unfold Obligations.PseudoInstructionsExpand
  intro dst ds src ss w h f hwf
  have hf : f.wellFormed = true := fx_wellFormed hwf
  have hid : Kernel.identity.wellFormed = true := by decide
  have hcopy := wellFormed_withKernels hwf hid hid
  have hvert := wellFormed_withKernels hwf hid hf
  exact ⟨assemble_eq_some rfl rfl hcopy, assemble_eq_some rfl rfl hcopy, assemble_eq_some rfl rfl hwf,
    assemble_eq_some rfl rfl hwf, assemble_eq_some rfl rfl hvert, assemble_eq_some rfl rfl hvert⟩

/-! ### The intra fields a mode does not use (R95) -/

/-- The checks of R230 read a command by its block, its source sets and the tests of R223 to R226. -/
theorem firstFailingCheck_congr {i j : Instr} (hblock : blockOf i = blockOf j) (hsource : sourceSets i = sourceSets j)
    (htests : badStride i = badStride j ∧ badStep i = badStep j ∧ badCoeff i = badCoeff j ∧ badNeighbor i = badNeighbor j) :
    firstFailingCheck i = firstFailingCheck j := by
  obtain ⟨hstride, hstep, hcoeff, hneighbor⟩ := htests
  unfold firstFailingCheck badAddr writeSet
  rw [hblock, hsource, hstride, hstep, hcoeff, hneighbor]

/-- The launch reads a command by its block and its source sets. -/
theorem launch_congr {i j : Instr} {e f : State → State} {s : State} (hblock : blockOf i = blockOf j)
    (hsource : sourceSets i = sourceSets j) (heffect : e s = f s) : launch i e s = launch j f s := by
  unfold launch footprintValid footprintOverlaps writeSet
  rw [hblock, hsource, heffect]

/-- Two commands with the same block, source sets and tests and the same effect have the same outcome. -/
theorem exec_congr {i j : Instr} {s : State} (hblock : blockOf i = blockOf j) (hsource : sourceSets i = sourceSets j)
    (htests : badStride i = badStride j ∧ badStep i = badStep j ∧ badCoeff i = badCoeff j ∧ badNeighbor i = badNeighbor j)
    (heffect : effectOf i s = effectOf j s) : exec i s = exec j s := by
  have hlaunch : launch i (fun t => complete (effectOf i t)) s = launch j (fun t => complete (effectOf j t)) s :=
    launch_congr hblock hsource (congrArg complete heffect)
  rw [exec_eq, exec_eq, runCommand, runCommand, firstFailingCheck_congr hblock hsource htests, hlaunch]

/-- INTRA.DC reads the address of the above row only where `HAS_ABOVE` = 1. -/
theorem dcValue_withAbove {c : IntraCmd} (h : c.hasAbove = false) (m : Memory) (a : Nat) :
    dcValue m { c with aboveAddr := a } = dcValue m c := by
  cases hl : c.hasLeft with
  | false => simp only [dcValue, h, hl]
  | true =>
    simp only [dcValue, h, hl]
    rfl

theorem dcValue_withLeft {c : IntraCmd} (h : c.hasLeft = false) (m : Memory) (a : Nat) :
    dcValue m { c with leftAddr := a } = dcValue m c := by
  cases ha : c.hasAbove with
  | false => simp only [dcValue, h, ha]
  | true =>
    simp only [dcValue, h, ha]
    rfl

/-- Settles O18: no check, set or sample of the command reads the field (`exec_congr`); in INTRA.DC the flag that is 0 keeps the
address out of its source sets and of its mean. -/
theorem unusedIntraFieldsIgnored : Obligations.UnusedIntraFieldsIgnored := by
  unfold Obligations.UnusedIntraFieldsIgnored
  intro c s b n a
  refine ⟨?_, ?_, ?_, ?_, ?_⟩
  · exact exec_congr rfl rfl ⟨rfl, rfl, rfl, rfl⟩ rfl
  · exact exec_congr rfl rfl ⟨rfl, rfl, rfl, rfl⟩ rfl
  · exact exec_congr rfl rfl ⟨rfl, rfl, rfl, rfl⟩ rfl
  · intro habove
    refine exec_congr rfl ?_ ⟨rfl, rfl, rfl, rfl⟩ ?_
    · simp [sourceSets, habove, leftSet]
    · simp [effectOf, intraDcEffect, dcSample, dcValue_withAbove habove, intraBlock]
  · intro hleft
    refine exec_congr rfl ?_ ⟨rfl, rfl, rfl, rfl⟩ ?_
    · simp [sourceSets, hleft, aboveSet]
    · simp [effectOf, intraDcEffect, dcSample, dcValue_withLeft hleft, intraBlock]

end Sys2Proof.Machine
end

section
/-! PROOFS. The filter kernel (40_filter_kernel.md): the rounding, the value of the 8-tap and the 2-tap form, the three
ranges of the sum, and the kernels that keep a sample. -/

namespace Sys2Proof.Machine

/-! ### The sum of products (R110) -/

/-- Zero coefficients leave nothing of the samples. -/
theorem mac_of_zeros (s : List Sample) (f : List Int) (hzero : ∀ x ∈ f, x = 0) : mac s f = 0 := by
  induction s, f using mac.induct with
  | case1 b ss x fs ih =>
    obtain ⟨hx, hfs⟩ := List.forall_mem_cons.mp hzero
    rw [mac, hx, ih hfs, mul_zero, add_zero]
  | case2 => rfl
  | case3 => rfl

/-- Where only the coefficient at `i` is not zero, the sum is its product alone. -/
theorem mac_of_single (s : List Sample) (f : List Int) (i : Nat) (hs : i < s.length) (hf : i < f.length)
    (hzero : ∀ (j : Nat) (hj : j < f.length), j ≠ i → f[j] = 0) : mac s f = (s[i].toNat : Int) * f[i] := by
  induction s, f using mac.induct generalizing i with
  | case1 b ss x fs ih =>
    cases i with
    | zero =>
      have htail : ∀ y ∈ fs, y = 0 :=
        List.forall_mem_iff_forall_getElem.mpr fun j hj => hzero (j + 1) (Nat.succ_lt_succ hj) j.succ_ne_zero
      rw [mac, mac_of_zeros ss fs htail, add_zero]
      rfl
    | succ i =>
      have hhead : x = 0 := hzero 0 (Nat.zero_lt_succ _) i.succ_ne_zero.symm
      have htail := ih i (Nat.lt_of_succ_lt_succ hs) (Nat.lt_of_succ_lt_succ hf)
        fun j hj hne => hzero (j + 1) (Nat.succ_lt_succ hj) (Nat.succ_ne_succ_iff.mpr hne)
      rw [mac, hhead, htail, mul_zero, zero_add]
      rfl
  | case2 => exact absurd hs (Nat.not_lt_zero i)
  | case3 => exact absurd hf (Nat.not_lt_zero i)

/-- On constant samples the sum is the sample times the sum of the coefficients. -/
theorem mac_replicate (f : List Int) (v : Sample) : mac (List.replicate f.length v) f = (v.toNat : Int) * f.sum := by
  induction f with
  | nil => simp [mac]
  | cons x fs ih => rw [List.length_cons, List.replicate_succ, mac, ih, List.sum_cons, mul_add]

/-- A sum of 128 times a sample rounds to the sample, with nothing to clamp. -/
theorem applyKernel_of_mac {s : List Sample} {f : List Int} {v : Sample} (h : mac s f = (v.toNat : Int) * 128) :
    applyKernel s f = v := by
  have hround : roundShift (mac s f) = (v.toNat : Int) := by
    rw [roundShift_eq, h]
    omega
  rw [applyKernel, hround, sat8_sample]

/-! ### The statements -/

/-- Settles O1: the eight products of `mac_taps` under the rounding and the clamp of `applyKernel_toNat`. -/
theorem eightTapKernelValue : Obligations.EightTapKernelValue := by
  unfold Obligations.EightTapKernelValue
  intro line p f
  rw [k8, applyKernel_toNat, mac_taps]
  simp only [add_assoc]

/-- Settles O3: the 8-tap form is the 2-tap form by `k8_eq_k2`, whose value is that of its two products. -/
theorem twoTapFormAgrees : Obligations.TwoTapFormAgrees := by
  unfold Obligations.TwoTapFormAgrees
  intro line p f h0 h1 h2 h5 h6 h7
  have htwo : k8 line p f = applyKernel [line p, line (p + 1)] [f.t3, f.t4] :=
    k8_eq_k2 line p f ⟨h0, h1, h2, h5, h6, h7⟩
  refine ⟨htwo, ?_⟩
  rw [htwo, applyKernel_toNat]
  simp only [mac, add_zero]

/-- Settles O4: the sum is the one product `s[i] * 128` (`mac_of_single`). -/
theorem identityKernelReturnsSample : Obligations.IdentityKernelReturnsSample := by
  unfold Obligations.IdentityKernelReturnsSample
  intro s f i hs hf hunity hzero
  exact applyKernel_of_mac (by rw [mac_of_single s f i hs hf hzero, hunity])

/-- Settles O5: the rounded sum is 255 or more from 32576 up (32576 + 64 = 255 * 128), 0 or less up to 63, and so within
the clamp in between. -/
theorem kernelSaturates : Obligations.KernelSaturates := by
  unfold Obligations.KernelSaturates
  intro s f
  have hvalue := applyKernel_toNat s f
  refine ⟨?_, ?_, ?_⟩
  · intro hhigh
    have : (applyKernel s f).toNat = 255 := by omega
    exact BitVec.eq_of_toNat_eq this
  · intro hlow
    have : (applyKernel s f).toNat = 0 := by omega
    exact BitVec.eq_of_toNat_eq this
  · intro hlow hhigh
    rw [roundShift_eq]
    omega

/-- Settles O6: the sum is `v * 128` (`mac_replicate`). -/
theorem constantInputIsKept : Obligations.ConstantInputIsKept := by
  unfold Obligations.ConstantInputIsKept
  intro f v hsum
  exact applyKernel_of_mac (by rw [mac_replicate, hsum])

/-- Settles O2: `ROUND` divides by 128 with the floor (`roundShift_eq`), which both bounds follow from. -/
theorem roundToNearestTiesUp : Obligations.RoundToNearestTiesUp := by
  unfold Obligations.RoundToNearestTiesUp
  intro a
  have hround := roundShift_eq a
  refine ⟨hround, ?_, ?_⟩ <;> omega

end Sys2Proof.Machine
end

section
/-! PROOFS. Convolution (41_convolve.md): the class of an axis, the block INTER.PUT stores, the copy it is with both axes COPY,
and the commands that go through `TMP`. -/

namespace Sys2Proof.Machine

/-! ### The class of an axis (R131) -/

theorem classOf_eq_copy_iff (step : Nat) (f : Kernel) :
    classOf step f = .copy ↔ step = 16 ∧ f = Kernel.identity := by
  unfold classOf
  split
  case isTrue hcopy => exact iff_of_true rfl hcopy
  case isFalse hcopy =>
    refine iff_of_false ?_ hcopy
    split <;> exact AxisClass.noConfusion

theorem classOf_eq_bilinear_iff (step : Nat) (f : Kernel) :
    classOf step f = .bilinear ↔ ¬ (step = 16 ∧ f = Kernel.identity) ∧
      f.t0 = 0 ∧ f.t1 = 0 ∧ f.t2 = 0 ∧ f.t5 = 0 ∧ f.t6 = 0 ∧ f.t7 = 0 := by
  unfold classOf
  split
  case isTrue hcopy => exact iff_of_false AxisClass.noConfusion fun h => h.1 hcopy
  case isFalse hcopy =>
    split
    case isTrue houter => exact iff_of_true rfl ⟨hcopy, houter⟩
    case isFalse houter => exact iff_of_false AxisClass.noConfusion fun h => houter h.2

theorem classOf_eq_full_iff (step : Nat) (f : Kernel) :
    classOf step f = .full ↔ ¬ (step = 16 ∧ f = Kernel.identity) ∧
      ¬ (f.t0 = 0 ∧ f.t1 = 0 ∧ f.t2 = 0 ∧ f.t5 = 0 ∧ f.t6 = 0 ∧ f.t7 = 0) := by
  unfold classOf
  split
  case isTrue hcopy => exact iff_of_false AxisClass.noConfusion fun h => h.1 hcopy
  case isFalse hcopy =>
    split
    case isTrue houter => exact iff_of_false AxisClass.noConfusion fun h => h.2 houter
    case isFalse houter => exact iff_of_true rfl ⟨hcopy, houter⟩

/-- Settles O43: one lemma per class, and the extents by the table of R132. -/
theorem axisClassesAndExtents : Obligations.AxisClassesAndExtents := by
  unfold Obligations.AxisClassesAndExtents
  intro step f
  exact ⟨classOf_eq_copy_iff step f, classOf_eq_bilinear_iff step f, classOf_eq_full_iff step f,
    rfl, rfl, rfl, rfl, rfl, rfl⟩

/-! ### The block INTER.PUT stores (R136, R139) -/

/-- Settles O9: the samples stored are the general predictor's whatever the classes (`predictor_eq_general`). -/
theorem interPutStoresPredictor : Obligations.InterPutStoresPredictor := by
  unfold Obligations.InterPutStoresPredictor
  intro c s hchecks hcontract
  refine ⟨_, exec_of_pass hchecks hcontract, completed_effect _ s, ?_⟩
  exact blockWritten_congr (effectOf_written hchecks s) (predictor_eq_general c s)

theorem refSample_natCast (m : Memory) (c : InterCmd) (y x : Nat) :
    refSample m c y x = Memory.read m (c.srcAddr + y * c.srcStride + x) := by
  rw [refSample, addr_natCast, memRead_natCast]

section
variable {c : InterCmd} (hx : classX c = .copy) (hy : classY c = .copy)
include hx hy

/-- With both axes COPY the predictor is the reference sample (R136). -/
theorem predictor_of_copy (s : State) (y x : Nat) : predictor c s y x = refSample s.mem c y x := by
  rw [predictor, hx, hy]

/-- With both axes COPY the window is the `W*H` block at `SRC_ADDR` (R132, R136). -/
theorem inWindow_of_copy (a : Int) :
    InWindow c a ↔
      ∃ y x : Nat, y < c.h ∧ x < c.w ∧ a = (c.srcAddr : Int) + (y : Int) * (c.srcStride : Int) + (x : Int) := by
  simp only [InWindow, hx, hy, AxisClass.before, AxisClass.after]
  constructor
  · rintro ⟨r, k, hr0, hrh, hk0, hkw, rfl⟩
    obtain ⟨y, rfl⟩ := Int.eq_ofNat_of_zero_le (by omega : 0 ≤ r)
    obtain ⟨x, rfl⟩ := Int.eq_ofNat_of_zero_le (by omega : 0 ≤ k)
    exact ⟨y, x, by omega, by omega, rfl⟩
  · rintro ⟨y, x, hyh, hxw, rfl⟩
    exact ⟨y, x, by omega, by omega, by omega, by omega, rfl⟩

end

/-- Settles O11: the checks leave steps of 16 alone, so identity kernels make both axes COPY (`classOf_eq_copy_iff`). -/
theorem copyDegeneracyCopiesBlock : Obligations.CopyDegeneracyCopiesBlock := by
  unfold Obligations.CopyDegeneracyCopiesBlock
  intro c s hfx hfy hchecks hcontract
  have ⟨_, _, _, _, hstepX, hstepY, _⟩ := hchecks
  have hx : classX c = .copy := (classOf_eq_copy_iff _ _).mpr ⟨hstepX, hfx⟩
  have hy : classY c = .copy := (classOf_eq_copy_iff _ _).mpr ⟨hstepY, hfy⟩
  refine ⟨⟨_, exec_of_pass hchecks hcontract, ?_⟩, inWindow_of_copy hx hy⟩
  refine blockWritten_congr (effectOf_written hchecks s) fun y x _ _ => ?_
  rw [samplesOf, predictor_of_copy hx hy, firstPass_mem, refSample_natCast]

/-! ### Who touches `TMP` (R33, R137, R138) -/

/-- After a two-pass command `TMP` is the next free value, whatever the store loop wrote to memory (R33). -/
theorem lastPass_tmp_of_twoPass {c : InterCmd} (hx : classX c ≠ .copy) (hy : classY c ≠ .copy)
    (P : Nat → Nat → Sample) (s : State) :
    (lastPass c (storeBlock (interBlock c) P (firstPass c s))).tmp = ⟨s.freeCount, []⟩ ∧
      (lastPass c (storeBlock (interBlock c) P (firstPass c s))).freeCount = s.freeCount + 1 := by
  have htwo : twoPass c = true := by simp [twoPass, hx, hy]
  rw [lastPass, firstPass, if_pos htwo, if_pos htwo]
  exact ⟨rfl, rfl⟩

/-- The effect of a command that is not a two-pass inter command leaves `TMP` alone (R138). -/
theorem effectOf_tmpKept (i : Instr) (s : State)
    (hone : ∀ c, i = .interPut c ∨ i = .interAvg c → classX c = .copy ∨ classY c = .copy) :
    TmpKept s (effectOf i s) := by
  cases i with
  | interPut c => exact lastPass_tmpKept c _ s (hone c (.inl rfl))
  | interAvg c => exact lastPass_tmpKept c _ s (hone c (.inr rfl))
  | intraV c => exact ⟨rfl, rfl⟩
  | intraH c => exact ⟨rfl, rfl⟩
  | intraDc c => exact ⟨rfl, rfl⟩
  | intraTm c => exact ⟨rfl, rfl⟩

/-- Settles O17: completion leaves `TMP` to the effect, which draws a free value in a two-pass command alone. -/
theorem tmpIsWrittenByTwoPassOnly : Obligations.TmpIsWrittenByTwoPassOnly := by
  unfold Obligations.TmpIsWrittenByTwoPassOnly
  constructor
  · intro i s hchecks hcontract hone
    exact ⟨_, exec_of_pass hchecks hcontract, effectOf_tmpKept i s hone⟩
  · intro i c s hchecks hcontract hi hx hy
    refine ⟨_, exec_of_pass hchecks hcontract, ?_⟩
    obtain rfl | rfl := hi <;> exact lastPass_tmp_of_twoPass hx hy _ s

end Sys2Proof.Machine
end

section
/-! PROOFS. Blend (42_blend.md): the laws of `BLEND`, and the block INTER.AVG stores. -/

namespace Sys2Proof.Machine

/-! ### The laws of `BLEND` (R160, R161) -/

theorem blend_comm (d n : Sample) : blend d n = blend n d := by
  rw [blend, blend, Nat.add_comm d.toNat]

theorem blend_self (x : Sample) : blend x x = x := by
  refine BitVec.eq_of_toNat_eq ?_
  rw [blend_toNat]
  omega

theorem min_le_blend (d n : Sample) : min d.toNat n.toNat ≤ (blend d n).toNat := by
  rw [blend_toNat]
  omega

theorem blend_le_max (d n : Sample) : (blend d n).toNat ≤ max d.toNat n.toNat := by
  rw [blend_toNat]
  omega

/-- Settles O7: the sum never wraps (`blend_toNat`), and addition is commutative. -/
theorem blendIsRoundedAverage : Obligations.BlendIsRoundedAverage := by
  unfold Obligations.BlendIsRoundedAverage
  exact fun d n => ⟨blend_toNat d n, blend_comm d n⟩

/-- Settles O8: the laws above, and the two groupings of 0, 0, 3 evaluated. -/
theorem blendLaws : Obligations.BlendLaws := by
  unfold Obligations.BlendLaws
  exact ⟨blend_self, fun d n => ⟨min_le_blend d n, blend_le_max d n⟩, by decide, by decide⟩

/-! ### The block INTER.AVG stores (R163) -/

/-- INTER.AVG's sample is the old byte of its own block blended with the sample INTER.PUT stores there (R163). -/
theorem samplesOf_interAvg (c : InterCmd) (s : State) (y x : Nat) :
    samplesOf (.interAvg c) s y x =
      blend (Memory.read s.mem (c.dstAddr + y * c.dstStride + x)) (samplesOf (.interPut c) s y x) :=
  congrArg (blend · _) (dstSample_eq s.mem (interBlock c) y x)

/-- Settles O10: each sample is the old byte blended with INTER.PUT's (`samplesOf_interAvg`), which is the general predictor's
(`predictor_eq_general`). -/
theorem interAvgBlendsPredictor : Obligations.InterAvgBlendsPredictor := by
  unfold Obligations.InterAvgBlendsPredictor
  intro c s hchecks hcontract
  refine ⟨_, exec_of_pass hchecks hcontract, completed_effect _ s, ?_⟩
  refine blockWritten_congr (effectOf_written hchecks s) fun y x hy hx => ?_
  rw [samplesOf_interAvg, samplesOf, predictor_eq_general c s y x hy hx]
  rfl

end Sys2Proof.Machine
end

section
/-! PROOFS. Intra prediction (43_intra.md): the block each of the four modes stores, the neighbor sets they require, and the laws
of DC and TM on constant edges. -/

namespace Sys2Proof.Machine

/-! ### What the four modes share -/

/-- A command whose checks pass and whose contract is kept completes and has written its block with its samples (R61, R207). -/
theorem exec_completes {i : Instr} {s : State} (hchecks : ChecksPass i) (hcontract : ContractKept i s) :
    ∃ t, exec i s = .next t ∧ Completed s t ∧ BlockWritten (blockOf i) (samplesOf i s) s t :=
  ⟨_, exec_of_pass hchecks hcontract, completed_effect i s, effectOf_written hchecks s⟩

/-- A command without the neighbor set it requires is stopped with `ERR_NEIGHBOR` once size and stride are legal: no mode that
requires one has a step or a kernel to check (R226, R230). -/
theorem exec_of_neighborBroken {i : Instr} (hsize : SizeOk (blockOf i)) (hstride : (blockOf i).w ≤ (blockOf i).stride)
    (hneighbor : NeighborBroken i) (s : State) : exec i s = .next (errorEntry .neighbor s) := by
  have hearlier : badStride i = false ∧ badStep i = false ∧ badCoeff i = false := by
    cases i with
    | interPut c => exact hneighbor.elim
    | interAvg c => exact hneighbor.elim
    | intraV c => exact ⟨decide_eq_false (Nat.not_lt.mpr hstride), rfl, rfl⟩
    | intraH c => exact ⟨decide_eq_false (Nat.not_lt.mpr hstride), rfl, rfl⟩
    | intraDc c => exact hneighbor.elim
    | intraTm c => exact ⟨decide_eq_false (Nat.not_lt.mpr hstride), rfl, rfl⟩
  obtain ⟨hfits, hstep, hcoeff⟩ := hearlier
  refine exec_of_fail ?_ s
  simp [firstFailingCheck, (badSize_false_iff _).mpr hsize, hfits, hstep, hcoeff, (badNeighbor_iff i).mpr hneighbor]

/-- `above[x]` as a byte of memory (R64, R170). -/
theorem aboveSample_eq (m : Memory) (c : IntraCmd) (x : Nat) : aboveSample m c x = Memory.read m (c.aboveAddr + x) :=
  memRead_natCast m (c.aboveAddr + x)

/-- `left[y]` as a byte of memory (R64, R170). -/
theorem leftSample_eq (m : Memory) (c : IntraCmd) (y : Nat) : leftSample m c y = Memory.read m (c.leftAddr + y) :=
  memRead_natCast m (c.leftAddr + y)

/-! ### V and H (R173, R174) -/

/-- Settles O12: INTRA.V's sample is `above[x]` (`aboveSample_eq`), and its neighbor check asks for the above row. -/
theorem intraVReplicatesAboveRow : Obligations.IntraVReplicatesAboveRow := by
  unfold Obligations.IntraVReplicatesAboveRow
  constructor
  · intro c s hchecks hcontract
    obtain ⟨t, hexec, hdone, hblock⟩ := exec_completes hchecks hcontract
    exact ⟨t, hexec, hdone, blockWritten_congr hblock fun _ x _ _ => aboveSample_eq s.mem c x⟩
  · intro c s hsize hstride habove
    exact exec_of_neighborBroken (i := .intraV c) hsize hstride habove s

/-- Settles O13: INTRA.H's sample is `left[y]` (`leftSample_eq`), and its neighbor check asks for the left column. -/
theorem intraHReplicatesLeftColumn : Obligations.IntraHReplicatesLeftColumn := by
  unfold Obligations.IntraHReplicatesLeftColumn
  constructor
  · intro c s hchecks hcontract
    obtain ⟨t, hexec, hdone, hblock⟩ := exec_completes hchecks hcontract
    exact ⟨t, hexec, hdone, blockWritten_congr hblock fun y _ _ _ => leftSample_eq s.mem c y⟩
  · intro c s hsize hstride hleft
    exact exec_of_neighborBroken (i := .intraH c) hsize hstride hleft s

/-! ### DC (R175) -/

theorem aboveSum_eq (m : Memory) (c : IntraCmd) :
    aboveSum m c = ((List.range c.w).map fun x => (Memory.read m (c.aboveAddr + x)).toNat).sum := by
  simp only [aboveSum, aboveSample_eq]

theorem leftSum_eq (m : Memory) (c : IntraCmd) :
    leftSum m c = ((List.range c.h).map fun y => (Memory.read m (c.leftAddr + y)).toNat).sum := by
  simp only [leftSum, leftSample_eq]

/-- A sum of `n` samples is at most `255*n`. -/
theorem sum_samples_le (n : Nat) (line : Nat → Sample) :
    ((List.range n).map fun k => (line k).toNat).sum ≤ n * 255 := by
  have hle : ∀ v ∈ (List.range n).map fun k => (line k).toNat, v ≤ 255 := by
    intro v hv
    obtain ⟨k, _, rfl⟩ := List.mem_map.mp hv
    exact Nat.le_of_lt_succ (line k).isLt
  simpa using List.sum_le_card_nsmul _ 255 hle

/-- The rounded mean of `n` values whose sum is at most `255*n` fits a Sample. -/
theorem roundedMean_lt {n total : Nat} (hn : 1 ≤ n) (htotal : total ≤ n * 255) : (total + n / 2) / n < 256 :=
  (Nat.div_lt_iff_lt_mul hn).mpr (by omega)

/-- The rounded mean of `n` equal values is that value. -/
theorem roundedMean_of_const {n : Nat} (hn : 1 ≤ n) (v : Nat) : (n * v + n / 2) / n = v := by
  rw [Nat.mul_add_div hn, Nat.div_eq_of_lt (by omega : n / 2 < n), Nat.add_zero]

section
variable {c : IntraCmd} (m : Memory)

theorem dcValue_of_both (ha : c.hasAbove = true) (hl : c.hasLeft = true) :
    dcValue m c = (aboveSum m c + leftSum m c + (c.w + c.h) / 2) / (c.w + c.h) := by
  rw [dcValue, ha, hl]

theorem dcValue_of_above (ha : c.hasAbove = true) (hl : c.hasLeft = false) :
    dcValue m c = (aboveSum m c + c.w / 2) / c.w := by
  rw [dcValue, ha, hl]

theorem dcValue_of_left (ha : c.hasAbove = false) (hl : c.hasLeft = true) :
    dcValue m c = (leftSum m c + c.h / 2) / c.h := by
  rw [dcValue, ha, hl]

theorem dcValue_of_none (ha : c.hasAbove = false) (hl : c.hasLeft = false) : dcValue m c = 128 := by
  rw [dcValue, ha, hl, Config.neutral]

/-- `v` is always 0 to 255, whichever sets exist (R175). -/
theorem dcValue_lt (hsize : SizeOk (intraBlock c)) : dcValue m c < 256 := by
  obtain ⟨hw, _, hh, _⟩ := hsize
  have habove : aboveSum m c ≤ c.w * 255 := sum_samples_le c.w (aboveSample m c)
  have hleft : leftSum m c ≤ c.h * 255 := sum_samples_le c.h (leftSample m c)
  cases ha : c.hasAbove <;> cases hl : c.hasLeft
  case true.true =>
    rw [dcValue_of_both m ha hl]
    exact roundedMean_lt (Nat.le_add_right_of_le hw) (by omega)
  case true.false => exact dcValue_of_above m ha hl ▸ roundedMean_lt hw habove
  case false.true => exact dcValue_of_left m ha hl ▸ roundedMean_lt hh hleft
  case false.false => exact dcValue_of_none m ha hl ▸ (by decide : 128 < 256)

/-- Nothing of `v` is lost in the eight bits (R175). -/
theorem dcSample_toNat (hsize : SizeOk (intraBlock c)) : (dcSample m c).toNat = dcValue m c :=
  Nat.mod_eq_of_lt (dcValue_lt m hsize)

end

/-- Settles O14: `v` fits a Sample (`dcSample_toNat`), and each pair of flags is one case of `dcValue`. -/
theorem intraDcFillsWithMean : Obligations.IntraDcFillsWithMean := by
  unfold Obligations.IntraDcFillsWithMean
  intro c s hchecks hcontract
  obtain ⟨t, hexec, hdone, hblock⟩ := exec_completes hchecks hcontract
  refine ⟨t, dcSample s.mem c, hexec, hdone, hblock, ?_⟩
  obtain ⟨hsize, _, _⟩ := hchecks
  rw [dcSample_toNat s.mem hsize, ← aboveSum_eq, ← leftSum_eq]
  exact ⟨dcValue_of_both s.mem, dcValue_of_above s.mem, dcValue_of_left s.mem, dcValue_of_none s.mem⟩

/-! ### TM (R180) -/

theorem predictTm_toNat (m : Memory) (c : IntraCmd) (y x : Nat) :
    ((predictTm m c y x).toNat : Int) =
      max 0 (min (((Memory.read m (c.aboveAddr + x)).toNat : Int) + ((Memory.read m (c.leftAddr + y)).toNat : Int) -
        (c.corner : Int)) 255) := by
  rw [predictTm, sat8_toNat, aboveSample_eq, leftSample_eq]

/-- Settles O15: INTRA.TM's sample is the clamped gradient (`predictTm_toNat`), and its neighbor check asks for both sets. -/
theorem intraTmAddsGradient : Obligations.IntraTmAddsGradient := by
  unfold Obligations.IntraTmAddsGradient
  constructor
  · intro c s hchecks hcontract
    obtain ⟨t, hexec, hdone, hblock⟩ := exec_completes hchecks hcontract
    exact ⟨t, predictTm s.mem c, hexec, hdone, hblock, predictTm_toNat s.mem c⟩
  · intro c s hsize hstride hmissing
    exact exec_of_neighborBroken (i := .intraTm c) hsize hstride hmissing s

/-! ### Laws on constant edges (R181) -/

theorem dcSample_of_no_neighbors {c : IntraCmd} (ha : c.hasAbove = false) (hl : c.hasLeft = false) (m : Memory) :
    dcSample m c = 128 := by
  rw [dcSample, dcValue_of_none m ha hl]
  rfl

/-- A constant above row alone has that constant as its mean. -/
theorem dcSample_of_const_above {c : IntraCmd} (hw : 1 ≤ c.w) (ha : c.hasAbove = true) (hl : c.hasLeft = false)
    {m : Memory} {v : Sample} (hv : ∀ x, x < c.w → Memory.read m (c.aboveAddr + x) = v) : dcSample m c = v := by
  have hsum : aboveSum m c = c.w * v.toNat := by
    rw [aboveSum_eq, List.map_congr_left fun x hx => congrArg BitVec.toNat (hv x (List.mem_range.mp hx))]
    simp
  rw [dcSample, dcValue_of_above m ha hl, hsum, roundedMean_of_const hw, BitVec.ofNat_toNat, BitVec.setWidth_eq]

/-- Where `left[y]` is the corner, TM's gradient is `above[x]`, the sample of V. -/
theorem predictTm_of_left {m : Memory} {c : IntraCmd} {y : Nat}
    (hleft : (Memory.read m (c.leftAddr + y)).toNat = c.corner) (x : Nat) : predictTm m c y x = predictV m c y x := by
  rw [predictTm, leftSample_eq, hleft, add_sub_cancel_right, sat8_sample, predictV]

/-- Where `above[x]` is the corner, TM's gradient is `left[y]`, the sample of H. -/
theorem predictTm_of_above {m : Memory} {c : IntraCmd} {x : Nat}
    (habove : (Memory.read m (c.aboveAddr + x)).toNat = c.corner) (y : Nat) : predictTm m c y x = predictH m c y x := by
  rw [predictTm, aboveSample_eq, habove, add_sub_cancel_left, sat8_sample, predictH]

/-- Where both edges are the corner, so is TM's sample. -/
theorem predictTm_of_both {m : Memory} {c : IntraCmd} {y x : Nat}
    (hleft : (Memory.read m (c.leftAddr + y)).toNat = c.corner)
    (habove : (Memory.read m (c.aboveAddr + x)).toNat = c.corner) : predictTm m c y x = BitVec.ofNat 8 c.corner := by
  rw [predictTm_of_left hleft, predictV, aboveSample_eq, ← habove, BitVec.ofNat_toNat, BitVec.setWidth_eq]

/-- A command with the same block and no further sources stays in the address space too (R227). -/
theorem addrOk_of_sources {i j : Instr} (hsource : ∀ a, InSource j a → InSource i a) (hblock : blockOf j = blockOf i)
    (h : AddrOk i) : AddrOk j :=
  fun a ha => h a (ha.imp (hsource a) (hblock ▸ ·))

/-- A command with the same block and no further sources keeps the contract too (R53, R72). -/
theorem contractKept_of_sources {i j : Instr} {s : State} (hsource : ∀ a, InSource j a → InSource i a)
    (hblock : blockOf j = blockOf i) (h : ContractKept i s) : ContractKept j s := by
  obtain ⟨hvalid, hdisjoint⟩ := h
  exact ⟨fun a ha => hvalid a (ha.imp (hsource a) (hblock ▸ ·)), fun a ha => hblock ▸ hdisjoint a (hsource a ha)⟩

/-- INTRA.V completes wherever INTRA.TM does: it reads one of TM's two edges. -/
theorem intraV_completes_of_intraTm {c : IntraCmd} {s : State} (hchecks : ChecksPass (.intraTm c))
    (hcontract : ContractKept (.intraTm c) s) :
    ∃ u, exec (.intraV c) s = .next u ∧ BlockWritten (intraBlock c) (predictV s.mem c) s u := by
  obtain ⟨hsize, haddr, hstride, habove, _⟩ := hchecks
  have hsource : ∀ a, InSource (.intraV c) a → InSource (.intraTm c) a := fun _ ha => .inl ha
  have hpass : ChecksPass (.intraV c) := ⟨hsize, addrOk_of_sources hsource rfl haddr, hstride, habove⟩
  obtain ⟨u, hexec, _, hblock⟩ := exec_completes hpass (contractKept_of_sources hsource rfl hcontract)
  exact ⟨u, hexec, hblock⟩

/-- INTRA.H completes wherever INTRA.TM does: it reads the other edge. -/
theorem intraH_completes_of_intraTm {c : IntraCmd} {s : State} (hchecks : ChecksPass (.intraTm c))
    (hcontract : ContractKept (.intraTm c) s) :
    ∃ u, exec (.intraH c) s = .next u ∧ BlockWritten (intraBlock c) (predictH s.mem c) s u := by
  obtain ⟨hsize, haddr, hstride, _, hleft⟩ := hchecks
  have hsource : ∀ a, InSource (.intraH c) a → InSource (.intraTm c) a := fun _ ha => .inr ha
  have hpass : ChecksPass (.intraH c) := ⟨hsize, addrOk_of_sources hsource rfl haddr, hstride, hleft⟩
  obtain ⟨u, hexec, _, hblock⟩ := exec_completes hpass (contractKept_of_sources hsource rfl hcontract)
  exact ⟨u, hexec, hblock⟩

/-- Settles O16: on constant edges each stored sample is the one the law names (`dcSample_of_const_above`, `predictTm_of_left`,
`predictTm_of_above`), and equal samples in one block make equal memories (`blockWritten_unique`). -/
theorem intraLaws : Obligations.IntraLaws := by
  unfold Obligations.IntraLaws
  constructor
  · intro c s hchecks hcontract
    obtain ⟨t, hexec, _, hblock⟩ := exec_completes hchecks hcontract
    obtain ⟨⟨hw, _⟩, _⟩ := hchecks
    refine ⟨t, hexec, fun ha hl => ?_, fun v ha hl hv => ?_⟩
    · exact blockWritten_congr hblock fun _ _ _ _ => dcSample_of_no_neighbors ha hl s.mem
    · exact blockWritten_congr hblock fun _ _ _ _ => dcSample_of_const_above hw ha hl hv
  · intro c s hchecks hcontract
    obtain ⟨t, hexec, _, hblock⟩ := exec_completes hchecks hcontract
    refine ⟨fun hleft habove => ?_, fun hleft => ?_, fun habove => ?_⟩
    · exact ⟨t, hexec, blockWritten_congr hblock fun y x hy hx => predictTm_of_both (hleft y hy) (habove x hx)⟩
    · obtain ⟨u, hexecV, hblockV⟩ := intraV_completes_of_intraTm hchecks hcontract
      exact ⟨t, u, hexec, hexecV, blockWritten_unique hblock hblockV fun y x hy _ => predictTm_of_left (hleft y hy) x⟩
    · obtain ⟨u, hexecH, hblockH⟩ := intraH_completes_of_intraTm hchecks hcontract
      exact ⟨t, u, hexec, hexecH, blockWritten_unique hblock hblockH fun y x _ hx => predictTm_of_above (habove x hx) y⟩

end Sys2Proof.Machine
end

section
/-! PROOFS. Unit 5 (44_dispatcher.md): which variant the dispatcher selects. -/

namespace Sys2Proof.Machine

theorem mem_specialSizes (n : Nat) : n ∈ Config.specialSizes ↔ n = 4 ∨ n = 8 ∨ n = 16 ∨ n = 32 ∨ n = 64 := by
  simp [Config.specialSizes]

/-- The size part is generic where a side is not special (R190). -/
theorem sizeVariant_of_not_special {w h : Nat} (hspecial : ¬ (w ∈ Config.specialSizes ∧ h ∈ Config.specialSizes)) :
    sizeVariant w h = .generic :=
  if_neg hspecial

/-- Where both sides are special, the size part names the width (R190). -/
theorem sizeVariant_of_special {w h : Nat} (hspecial : w ∈ Config.specialSizes ∧ h ∈ Config.specialSizes) :
    (w = 4 ∧ sizeVariant w h = .width4) ∨ (w = 8 ∧ sizeVariant w h = .width8) ∨ (w = 16 ∧ sizeVariant w h = .width16) ∨
    (w = 32 ∧ sizeVariant w h = .width32) ∨ (w = 64 ∧ sizeVariant w h = .width64) := by
  have hnamed : sizeVariant w h = if w = 4 then .width4 else if w = 8 then .width8 else if w = 16 then .width16 else
      if w = 32 then .width32 else .width64 := if_pos hspecial
  rcases (mem_specialSizes w).mp hspecial.1 with rfl | rfl | rfl | rfl | rfl <;> simp [hnamed]

/-- R190: the size part is generic exactly where a side is not special. -/
theorem sizeVariant_eq_generic_iff (w h : Nat) :
    sizeVariant w h = .generic ↔ ¬ (w ∈ Config.specialSizes ∧ h ∈ Config.specialSizes) := by
  refine ⟨fun hgeneric hspecial => ?_, sizeVariant_of_not_special⟩
  rcases sizeVariant_of_special hspecial with ⟨_, hv⟩ | ⟨_, hv⟩ | ⟨_, hv⟩ | ⟨_, hv⟩ | ⟨_, hv⟩ <;>
    simp [hv] at hgeneric

/-- A size part that is not generic names the width (R190). -/
theorem sizeVariant_names_width (w h : Nat) :
    (sizeVariant w h = .width4 → w = 4) ∧ (sizeVariant w h = .width8 → w = 8) ∧ (sizeVariant w h = .width16 → w = 16) ∧
    (sizeVariant w h = .width32 → w = 32) ∧ (sizeVariant w h = .width64 → w = 64) := by
  by_cases hspecial : w ∈ Config.specialSizes ∧ h ∈ Config.specialSizes
  · rcases sizeVariant_of_special hspecial with ⟨hw, hv⟩ | ⟨hw, hv⟩ | ⟨hw, hv⟩ | ⟨hw, hv⟩ | ⟨hw, hv⟩ <;>
      simpa [hv] using hw
  · simp [sizeVariant_of_not_special hspecial]

/-- Settles O44: the keys are `dispatchKey`'s own equations, and the size part is `sizeVariant_eq_generic_iff` with
`sizeVariant_names_width`. -/
theorem dispatcherSelectsBySize : Obligations.DispatcherSelectsBySize := by
  unfold Obligations.DispatcherSelectsBySize
  refine ⟨fun c => ⟨rfl, rfl⟩, fun c => ⟨rfl, rfl, rfl, rfl⟩, fun w h => ⟨?_, sizeVariant_names_width w h⟩⟩
  rw [sizeVariant_eq_generic_iff, mem_specialSizes, mem_specialSizes]

end Sys2Proof.Machine
end

section
/-! PROOFS. Control (45_control.md): what a register read returns, what each `CTRL` write does, the engine's turn among the
steps, the independence of a running command from `DESC`, and the host's script for one command. -/

namespace Sys2Proof.Machine

/-! ### Register reads (R201) -/

theorem regRead_ctrl (s : State) : regRead 16 s = 0 := rfl

theorem regRead_status (s : State) : regRead 17 s = s.status := rfl

theorem regRead_of_ge {i : Nat} (hi : 18 ≤ i) (s : State) : regRead i s = 0 := by
  rw [regRead, dif_neg (by omega), if_neg (by omega)]

/-- The four fields fit their places, so `STATUS` is their sum (R26, R201). -/
theorem status_toNat (s : State) :
    s.status.toNat = s.busy.toNat + 2 * s.done.toNat + 4 * s.err.toNat + 16 * s.errCode.toNat := by
  have hbusy := s.busy.toNat_le
  have hdone := s.done.toNat_le
  have herr := s.err.toNat_le
  have hcode := s.errCode.isLt
  rw [State.status, statusOf, BitVec.toNat_ofNat, Nat.mod_eq_of_lt (by omega)]
  omega

theorem step_regRead {s : State} {i : Nat} {rest : List Action} (h : s.agenda = .regRead i :: rest) :
    step s = .next (hostRead i { s with agenda := rest }) := by
  simp [step, h, perform]

/-- Settles O33: one equation of `regRead` for each range of indices; `hostRead` sets the reply and the model's own window alone. -/
theorem registerReadsHaveNoSideEffect : Obligations.RegisterReadsHaveNoSideEffect := by
  unfold Obligations.RegisterReadsHaveNoSideEffect
  intro s i
  refine ⟨fun hi => regRead_of_lt hi s, ?ctrl, ?status, fun hi => regRead_of_ge hi s, step_regRead rfl,
    rfl, rfl, rfl, rfl, rfl, rfl⟩
  case ctrl =>
    rintro rfl
    exact regRead_ctrl s
  case status =>
    rintro rfl
    rw [regRead_status, status_toNat]

/-! ### `CTRL` writes (R202 to R204, R209) -/

theorem regWrite_ctrl (v : Word) (s : State) : regWrite 16 v s = writeCtrl v s := rfl

theorem regWrite_of_ge {i : Nat} (hi : 17 ≤ i) (v : Word) (s : State) : regWrite i v s = s := by
  rw [regWrite, dif_neg (by omega), if_neg (by omega)]

section
variable {v : Word} (s : State)

theorem regWrite_start (hclr : field v 1 1 = 0) (hstart : field v 0 0 = 1) : regWrite 16 v s = doStart s := by
  simp [regWrite_ctrl, writeCtrl, hclr, hstart]

theorem regWrite_clr (hclr : field v 1 1 = 1) (hstart : field v 0 0 = 0) : regWrite 16 v s = doClr s := by
  simp [regWrite_ctrl, writeCtrl, hclr, hstart]

/-- `CLR` acts first, `START` second (R204). -/
theorem regWrite_clr_start (hclr : field v 1 1 = 1) (hstart : field v 0 0 = 1) : regWrite 16 v s = doStart (doClr s) := by
  simp [regWrite_ctrl, writeCtrl, hclr, hstart]

end

/-- R202: an idle engine without error accepts `START`. -/
theorem doStart_of_ready {s : State} (hbusy : s.busy = false) (herr : s.err = false) :
    doStart s = { s with cmd := s.desc, busy := true, done := false, inFlight := s.inFlight ++ [s.desc] } := by
  simp [doStart, hbusy, herr]

/-- R209. -/
theorem doStart_of_not_ready {s : State} (h : s.busy = true ∨ s.err = true) : doStart s = s := by
  simp [doStart, h]

theorem doClr_of_idle {s : State} (hbusy : s.busy = false) :
    doClr s = { s with done := false, err := false, errCode := 0 } := by
  simp [doClr, hbusy]

theorem doClr_of_busy {s : State} (hbusy : s.busy = true) : doClr s = s := if_pos hbusy

/-- After `CLR` an engine that is not busy shows no error, so its `START` is accepted (R204). -/
theorem doStart_doClr_of_idle {s : State} (hbusy : s.busy = false) :
    doStart (doClr s) =
      { s with
        cmd := s.desc, busy := true, done := false, err := false, errCode := 0, inFlight := s.inFlight ++ [s.desc] } := by
  rw [doClr_of_idle hbusy]
  exact doStart_of_ready hbusy rfl

/-- Settles O34: the write is `do_START()`, accepted (`doStart_of_ready`) or without a trace (`doStart_of_not_ready`). -/
theorem startLatchesDescriptorWhenIdle : Obligations.StartLatchesDescriptorWhenIdle := by
  unfold Obligations.StartLatchesDescriptorWhenIdle
  intro s v hclr hstart
  rw [regWrite_start s hclr hstart]
  constructor
  · intro hbusy herr
    rw [doStart_of_ready hbusy herr]
    exact ⟨rfl, rfl, rfl, rfl, rfl, rfl, rfl, rfl⟩
  · exact doStart_of_not_ready

/-- Settles O35: the write is `do_CLR()`, which clears the three fields of an idle engine and is ignored by a busy one. -/
theorem clearZeroesStatusWhenIdle : Obligations.ClearZeroesStatusWhenIdle := by
  unfold Obligations.ClearZeroesStatusWhenIdle
  intro s v hclr hstart
  rw [regWrite_clr s hclr hstart]
  rcases doClr_cases s with ⟨hbusy, he⟩ | ⟨hbusy, he⟩ <;> rw [he]
  · refine ⟨fun _ => ?_, fun h => absurd (hbusy.symm.trans h) Bool.false_ne_true, rfl, rfl, rfl⟩
    rw [State.status, hbusy]
    rfl
  · exact ⟨fun h => absurd (h.symm.trans hbusy) Bool.false_ne_true, fun _ => rfl, rfl, rfl, rfl⟩

/-- Settles O36: an engine that is not busy accepts the `START` after its `CLR` (`doStart_doClr_of_idle`); a busy one ignores both. -/
theorem clearThenStartInOneWrite : Obligations.ClearThenStartInOneWrite := by
  unfold Obligations.ClearThenStartInOneWrite
  intro s v hclr hstart
  rw [regWrite_clr_start s hclr hstart]
  constructor
  · intro hbusy
    rw [doStart_doClr_of_idle hbusy]
    exact ⟨rfl, rfl⟩
  · intro hbusy
    rw [doClr_of_busy hbusy, doStart_of_not_ready (.inl hbusy)]

/-- The two triggers are bits 1 and 0 of a `CTRL` write (R25). -/
theorem field_triggers (v : Word) : field v 1 1 = field v 1 0 / 2 ∧ field v 0 0 = field v 1 0 % 2 := by
  simp only [field, Nat.reducePow, Nat.reduceSub, Nat.reduceAdd]
  omega

/-- Settles O37: `writeCtrl` looks at its two triggers alone, and both lie in bits 1:0 (`field_triggers`). -/
theorem otherRegisterWritesIgnored : Obligations.OtherRegisterWritesIgnored := by
  unfold Obligations.OtherRegisterWritesIgnored
  refine ⟨fun s i v hi => regWrite_of_ge hi v s, fun s v w h => ?_⟩
  obtain ⟨hclr, hstart⟩ := field_triggers v
  obtain ⟨hclr', hstart'⟩ := field_triggers w
  rw [regWrite_ctrl, regWrite_ctrl, writeCtrl, writeCtrl, hclr, hstart, hclr', hstart', h]

/-! ### The engine's turn among the steps (R205, assumption 11) -/

/-- A latch that decodes to `i` runs `i` (R32, R205). -/
theorem execLatch_of_decode {s : State} {i : Instr} (h : decode s.cmd = .ok i) : execLatch s = exec i s := by
  simp [execLatch, h]

theorem engineTurn_of_busy {s : State} (h : s.busy = true) : engineTurn s = execLatch s := if_pos h

theorem engineTurn_of_idle {s : State} (h : s.busy = false) : engineTurn s = .next s := by
  simp [engineTurn, h]

/-- A busy engine whose latch decodes to `i` runs `i` on its turn. -/
theorem engineTurn_of_decode {s : State} {i : Instr} (hbusy : s.busy = true) (h : decode s.cmd = .ok i) :
    engineTurn s = exec i s :=
  (engineTurn_of_busy hbusy).trans (execLatch_of_decode h)

theorem step_of_agenda_nil {s : State} (h : s.agenda = []) : step s = engineTurn s := by
  simp [step, h]

theorem step_engine {s : State} {rest : List Action} (h : s.agenda = .engine :: rest) :
    step s = engineTurn { s with agenda := rest } := by
  simp [step, h, perform]

/-- The host has read `STATUS` in a poll that does not end the wait. -/
def polled (s : State) : State := { s with reply := some s.status }

/-- A poll that reads `DONE` = 0 returns `STATUS`, gives the engine its turn and stays on the agenda (R102, R210). -/
theorem step_wait_of_not_done {s : State} {rest : List Action} (h : s.agenda = .wait :: rest) (hdone : s.done = false) :
    step s = engineTurn (polled s) := by
  simp [step, h, perform, hdone, hostRead, regRead_status, polled, State.status]

/-- A poll that reads `DONE` = 1 is a `STATUS` read and leaves the loop (R102). -/
theorem step_wait_of_done {s : State} {rest : List Action} (h : s.agenda = .wait :: rest) (hdone : s.done = true) :
    step s = .next (hostRead 17 { s with agenda := rest }) := by
  simp [step, h, perform, hdone]

/-- Settles O39: each of the three kinds of step is the engine's turn (`step_of_agenda_nil`, `step_engine`,
`step_wait_of_not_done`), on a state with the same `BUSY` and latch. -/
theorem stepRunsLatchedCommand : Obligations.StepRunsLatchedCommand := by
  unfold Obligations.StepRunsLatchedCommand
  refine ⟨?decoded, ?illegal, ?idle⟩
  case decoded =>
    intro s i hbusy hd
    refine ⟨fun h => ?_, fun rest h => ?_, fun rest h hdone => ?_⟩
    · rw [step_of_agenda_nil h, engineTurn_of_decode hbusy hd]
    · rw [step_engine h]
      exact engineTurn_of_decode hbusy hd
    · rw [step_wait_of_not_done h hdone]
      exact engineTurn_of_decode hbusy hd
  case illegal =>
    intro s r hbusy h hd
    rw [step_of_agenda_nil h, engineTurn_of_busy hbusy, execLatch_of_illegal hd]
  case idle =>
    intro s hbusy h
    rw [step_of_agenda_nil h, engineTurn_of_idle hbusy]

/-- Settles O40: the placed words decode to the command (`decodeOfEncode`), the engine is busy and nothing is scheduled. -/
theorem placedCommandRunsNext : Obligations.PlacedCommandRunsNext := by
  unfold Obligations.PlacedCommandRunsNext
  intro i s hwf
  rw [step_of_agenda_nil rfl, engineTurn_of_decode rfl (decodeOfEncode i hwf)]

/-! ### A running command and `DESC` (R208) -/

/-- The effect of a command neither reads nor writes `DESC`. -/
theorem effectOf_withDesc (i : Instr) (d : Descriptor) (s : State) :
    effectOf i { s with desc := d } = { effectOf i s with desc := d } := by
  cases i with
  | interPut c =>
    simp only [effectOf, interPutEffect, lastPass, firstPass]
    cases twoPass c <;> rfl
  | interAvg c =>
    simp only [effectOf, interAvgEffect, lastPass, firstPass]
    cases twoPass c <;> rfl
  | intraV c => rfl
  | intraH c => rfl
  | intraDc c => rfl
  | intraTm c => rfl

theorem exec_withDesc {i : Instr} {s t : State} (h : exec i s = .next t) (d : Descriptor) :
    exec i { s with desc := d } = .next { t with desc := d } := by
  rcases exec_next h with ⟨e, he, rfl⟩ | ⟨hc, hk, rfl⟩
  · exact exec_of_fail he _
  · have hk' : ContractKept i { s with desc := d } := hk
    rw [exec_of_pass hc hk', effectOf_withDesc]
    rfl

/-- `EXEC` runs the latch whatever `DESC` holds, and keeps what it holds (R32). -/
theorem execLatch_withDesc {s t : State} (h : execLatch s = .next t) (d : Descriptor) :
    execLatch { s with desc := d } = .next { t with desc := d } := by
  cases hd : decode s.cmd with
  | ok i =>
    have hrun : execLatch { s with desc := d } = exec i { s with desc := d } := execLatch_of_decode hd
    rw [execLatch_of_decode hd] at h
    rw [hrun, exec_withDesc h]
  | error r =>
    rw [execLatch_of_illegal hd] at h
    injection h with h
    rw [← h]
    exact execLatch_of_illegal hd

/-- Settles O38: the write is an update of `DESC` alone, which `EXEC` carries along (`execLatch_withDesc`) over a `DESC` it has
not changed (`engineTurn_desc`). -/
theorem descWriteDoesNotReachRunningCommand : Obligations.DescWriteDoesNotReachRunningCommand := by
  unfold Obligations.DescWriteDoesNotReachRunningCommand
  intro s t i v hi hbusy h
  have hdesc : t.desc = s.desc := engineTurn_desc ((engineTurn_of_busy hbusy).trans h)
  rw [regWrite_of_lt hi, regWrite_of_lt hi, hdesc]
  exact ⟨(regRead_of_lt hi _).trans (Vector.getElem_set_self hi), execLatch_withDesc h _⟩

/-! ### Completion (R207) -/

/-- A completed command that started without error shows `STATUS` 2. -/
theorem status_of_completed {s t : State} (h : Completed s t) (herr : s.err = false) (hcode : s.errCode = 0) :
    t.status = 2 ∧ t.err = false ∧ t.errCode = 0 ∧ t.desc = s.desc := by
  obtain ⟨hbusy, hdone, hdesc, herr', hcode', _⟩ := h
  rw [herr] at herr'
  rw [hcode] at hcode'
  refine ⟨?_, herr', hcode', hdesc⟩
  rw [State.status, hbusy, hdone, herr', hcode']
  rfl

/-- Settles O41: the invariant says that a busy engine shows no error, and completion enters none. -/
theorem completionStatusIsTwo : Obligations.CompletionStatusIsTwo := by
  unfold Obligations.CompletionStatusIsTwo
  intro s i hinv hbusy hd hchecks hcontract
  obtain ⟨hrunning, _, hclear⟩ := hinv.status_legal
  have herr : s.err = false := (hrunning hbusy).2
  obtain ⟨t, hexec, hcompleted, _⟩ := exec_completes hchecks hcontract
  exact ⟨t, (execLatch_of_decode hd).trans hexec, status_of_completed hcompleted herr (hclear herr)⟩

/-! ### The host's script for one command (R102, R211) -/

/-- The engine after the sixteen writes and the accepted `START` of a command, the host about to poll. -/
def startedByScript (i : Instr) (rest : List Action) (s : State) : State :=
  { s with
    desc := encode i, cmd := encode i, busy := true, done := false, inFlight := s.inFlight ++ [encode i]
    agenda := .wait :: rest }

/-- The `start` line, where `DESC` holds the command and nothing keeps the engine from accepting it (R202). -/
theorem step_start {i : Instr} {s : State} {rest : List Action} (h : s.agenda = .regWrite 16 1 :: .wait :: rest)
    (hdesc : s.desc = encode i) (hbusy : s.busy = false) (herr : s.err = false) :
    step s = .next (startedByScript i rest s) := by
  have haccepted : doStart { s with agenda := .wait :: rest } = startedByScript i rest s := by
    rw [startedByScript, ← hdesc]
    exact doStart_of_ready hbusy herr
  simp only [step, h, perform]
  rw [regWrite_start _ (by decide) (by decide), haccepted]

/-- The `cmd` and `start` lines of the script take seventeen steps. -/
theorem run_writes_start {i : Instr} {s : State} {rest : List Action} (hbusy : s.busy = false) (herr : s.err = false)
    (h : s.agenda = commandScript i ++ rest) (n : Nat) :
    Host.Core.run Sys2Proof.core (16 + (n + 1)) s = Host.Core.run Sys2Proof.core n (startedByScript i rest s) := by
  have hwrites : s.agenda = writeDescriptor (encode i) ++ (.regWrite 16 1 :: .wait :: rest) := by
    simp [h, commandScript, scriptActions]
  have hstart : step { s with agenda := .regWrite 16 1 :: .wait :: rest, desc := encode i } =
      .next (startedByScript i rest s) := step_start rfl rfl hbusy herr
  exact (run_writeDescriptor _ _ _ _ hwrites).trans (run_succ hstart n)

/-- The `wait` line of a running command that completes takes two steps: one poll with the engine's turn in it, one poll that
reads `DONE` = 1 (R210). -/
theorem run_wait {i : Instr} {s : State} {rest : List Action} (h : s.agenda = .wait :: rest) (hbusy : s.busy = true)
    (hdone : s.done = false) (hd : decode s.cmd = .ok i) (hchecks : ChecksPass i) (hcontract : ContractKept i s) (n : Nat) :
    Host.Core.run Sys2Proof.core (n + 2) s =
      Host.Core.run Sys2Proof.core n (hostRead 17 { complete (effectOf i (polled s)) with agenda := rest }) := by
  have hcontract' : ContractKept i (polled s) := hcontract
  have hturn : engineTurn (polled s) = exec i (polled s) := engineTurn_of_decode hbusy hd
  have hpoll : step s = .next (complete (effectOf i (polled s))) := by
    rw [step_wait_of_not_done h hdone, hturn, exec_of_pass hchecks hcontract']
  obtain ⟨⟨_, _, _, _, _, hagenda, _⟩, _⟩ := effectOf_frame i (polled s)
  have hlast : (complete (effectOf i (polled s))).agenda = .wait :: rest := hagenda.trans h
  exact (run_succ hpoll (n + 1)).trans (run_succ (step_wait_of_done hlast rfl) n)

/-- A `STATUS` read that returns `DONE` = 1 and `ERR` = 0 ends the window of every command in flight (R258, assumption 12). -/
theorem hostRead_inFlight_of_observed {s : State} (hdone : s.done = true) (herr : s.err = false) :
    (hostRead 17 s).inFlight = [] := by
  simp [hdone, herr]

/-- Settles O42: seventeen steps bring the words into the latch (`run_writes_start`) and two run them (`run_wait`); the memory
left depends on the memory found alone (`effectOf_mem_congr`), and the last poll reads a completed `STATUS`. -/
theorem hostProtocolRunsOneCommand : Obligations.HostProtocolRunsOneCommand := by
  unfold Obligations.HostProtocolRunsOneCommand
  intro i s rest hwf hbusy herr hcode hchecks hcontract hscript
  have hrun := (run_writes_start hbusy herr hscript 2).trans
    (run_wait (s := startedByScript i rest s) rfl rfl rfl (decodeOfEncode i hwf) hchecks hcontract 0)
  obtain ⟨hstatus, herr', _, hdesc⟩ :=
    status_of_completed (completed_effect i (polled (startedByScript i rest s))) herr hcode
  exact ⟨_, _, hrun, exec_of_pass hchecks hcontract, effectOf_mem_congr hchecks rfl, hdesc, rfl,
    hostRead_inFlight_of_observed rfl herr', congrArg some hstatus, hstatus⟩

end Sys2Proof.Machine
end

section
/-! PROOFS. Exceptions (60_exceptions.md): the order of the checks and the address check, error entry, the halted state and the
record of errors, and commands of two engines on disjoint blocks. -/

namespace Sys2Proof.Machine

/-! ### The checks in code order (R230) -/

theorem badSize_iff (b : Block) : badSize b = true ↔ ¬ SizeOk b := by
  rw [← badSize_false_iff, Bool.not_eq_false]

theorem badAddr_iff {i : Instr} (hsize : SizeOk (blockOf i)) : badAddr i = true ↔ ¬ AddrOk i := by
  rw [← badAddr_false_iff i hsize, Bool.not_eq_false]

open Classical in
/-- `first_failing_check` with each check as its rule writes it (R222 to R227). -/
theorem firstFailingCheck_eq (i : Instr) :
    firstFailingCheck i =
      if ¬ SizeOk (blockOf i) then some .size
      else if StrideBroken i then some .stride
      else if StepBroken i then some .step
      else if CoeffBroken i then some .coeff
      else if NeighborBroken i then some .neighbor
      else if ¬ AddrOk i then some .addr
      else none := by
  unfold firstFailingCheck
  by_cases hsize : SizeOk (blockOf i)
  · simp only [badSize_iff, badStride_iff, badStep_iff, badCoeff_iff, badNeighbor_iff, badAddr_iff hsize]
  · simp only [badSize_iff, hsize, not_false_eq_true, if_true]

/-- A command that passes every check enters no error (R206, R207). -/
theorem exec_error_of_pass {i : Instr} {s t : State} (hpass : firstFailingCheck i = none) (h : exec i s = .next t) :
    t.err = s.err ∧ t.errCode = s.errCode := by
  rcases exec_next h with ⟨e, hfail, _⟩ | ⟨_, _, rfl⟩
  · cases hpass.symm.trans hfail
  · obtain ⟨⟨_, herr, hcode, _⟩, _⟩ := effectOf_frame i s
    exact ⟨herr, hcode⟩

/-- Settles O21: the hypotheses of each clause choose one branch of the chain of checks (`firstFailingCheck_eq`), and that
branch decides what `exec` does. -/
theorem lowestFailingCheckIsRecorded : Obligations.LowestFailingCheckIsRecorded := by
  unfold Obligations.LowestFailingCheckIsRecorded
  refine ⟨fun s r hd => execLatch_of_illegal hd, fun s i hd => ?_⟩
  rw [execLatch_of_decode hd]
  refine ⟨?size, ?stride, ?step, ?coeff, ?neighbor, ?addr, ?pass⟩
  case size =>
    intro hsize
    exact exec_of_fail (by simp [firstFailingCheck_eq, hsize]) s
  case stride =>
    intro hsize hstride
    exact exec_of_fail (by simp [firstFailingCheck_eq, hsize, hstride]) s
  case step =>
    intro hsize hstride hstep
    exact exec_of_fail (by simp [firstFailingCheck_eq, hsize, hstride, hstep]) s
  case coeff =>
    intro hsize hstride hstep hcoeff
    exact exec_of_fail (by simp [firstFailingCheck_eq, hsize, hstride, hstep, hcoeff]) s
  case neighbor =>
    intro hsize hstride hstep hcoeff hneighbor
    exact exec_of_fail (by simp [firstFailingCheck_eq, hsize, hstride, hstep, hcoeff, hneighbor]) s
  case addr =>
    intro hsize hstride hstep hcoeff hneighbor haddr
    exact exec_of_fail (by simp [firstFailingCheck_eq, hsize, hstride, hstep, hcoeff, hneighbor, haddr]) s
  case pass =>
    intro hsize hstride hstep hcoeff hneighbor haddr t
    exact exec_error_of_pass (by simp [firstFailingCheck_eq, hsize, hstride, hstep, hcoeff, hneighbor, haddr])

/-! ### The address check by its extremes (R65, R227) -/

/-- With the earlier checks passed, `ERR_ADDR` is entered exactly when the write set or a source set leaves the address space. -/
theorem exec_addr_iff {i : Instr} (hsize : SizeOk (blockOf i)) (hstride : ¬ StrideBroken i) (hstep : ¬ StepBroken i)
    (hcoeff : ¬ CoeffBroken i) (hneighbor : ¬ NeighborBroken i) (s : State) :
    exec i s = .next (errorEntry .addr s) ↔ EndsOutside (blockOf i) ∨ ∃ q ∈ sourceSets i, q.inSpace = false := by
  have haddr : firstFailingCheck i = some .addr ↔ badAddr i = true := by
    rw [badAddr_iff hsize]
    simp [firstFailingCheck_eq, hsize, hstride, hstep, hcoeff, hneighbor]
  rw [exec_errorEntry_iff, haddr, ← writeSet_inSpace_false_iff _ hsize.1]
  simp [badAddr, writeSet]

theorem exec_interPut_addr_iff {c : InterCmd} (hsize : SizeOk (interBlock c)) (hok : InterOk c) (s : State) :
    exec (.interPut c) s = .next (errorEntry .addr s) ↔ EndsOutside (interBlock c) ∨ (windowSet c).inSpace = false := by
  obtain ⟨hdst, hsrc, hx, hy, hfx, hfy⟩ := hok
  rw [exec_addr_iff (i := .interPut c) hsize (not_or.mpr ⟨Nat.not_lt.mpr hdst, Nat.not_lt.mpr hsrc⟩)
    (not_or.mpr ⟨not_not.mpr hx, not_not.mpr hy⟩) (not_or.mpr ⟨not_not.mpr hfx, not_not.mpr hfy⟩) not_false]
  simp [blockOf, sourceSets]

/-- Settles O23: the address check is left to decide (`exec_addr_iff`), and the ends of each set are those of R65
(`windowSet_inSpace_false_iff`, `aboveSet_inSpace_false_iff`, `leftSet_inSpace_false_iff`). -/
theorem addressCheckUsesExtremes : Obligations.AddressCheckUsesExtremes := by
  unfold Obligations.AddressCheckUsesExtremes
  constructor
  · intro c s hsize hok
    have hsame : firstFailingCheck (.interAvg c) = firstFailingCheck (.interPut c) :=
      firstFailingCheck_congr rfl rfl ⟨rfl, rfl, rfl, rfl⟩
    have ⟨_, _, hh, _⟩ := hsize
    refine ⟨?_, ?_⟩
    · rw [exec_interPut_addr_iff hsize hok, windowSet_inSpace_false_iff c hh]
    · rw [exec_errorEntry_iff, exec_errorEntry_iff, hsame]
  · intro c s hsize hdst
    have ⟨hw, _, hh, _⟩ := hsize
    have hstride : ¬ (c.dstStride < c.w ∨ False) := not_or.mpr ⟨Nat.not_lt.mpr hdst, not_false⟩
    rw [← aboveSet_inSpace_false_iff c hw, ← leftSet_inSpace_false_iff c hh]
    refine ⟨fun ha => ?_, fun hl => ?_, ?_, fun ha hl => ?_⟩
    · rw [exec_addr_iff (i := .intraV c) hsize hstride not_false not_false (by simp [NeighborBroken, ha])]
      simp [blockOf, sourceSets]
    · rw [exec_addr_iff (i := .intraH c) hsize hstride not_false not_false (by simp [NeighborBroken, hl])]
      simp [blockOf, sourceSets]
    · rw [exec_addr_iff (i := .intraDc c) hsize hstride not_false not_false not_false]
      simp [blockOf, sourceSets, or_and_right, exists_or]
    · rw [exec_addr_iff (i := .intraTm c) hsize hstride not_false not_false (by simp [NeighborBroken, ha, hl])]
      simp [blockOf, sourceSets]

/-! ### Error entry (R231) -/

/-- An illegal latch and a failing check both end in error entry (R221, R231). -/
theorem execLatch_of_error {s : State} {e : ErrorKind}
    (h : (∃ r, decode s.cmd = .error r ∧ e = .illegal) ∨ (∃ i, decode s.cmd = .ok i ∧ firstFailingCheck i = some e)) :
    execLatch s = .next (errorEntry e s) := by
  rcases h with ⟨r, hd, rfl⟩ | ⟨i, hd, hfail⟩
  · exact execLatch_of_illegal hd
  · exact (execLatch_of_decode hd).trans (exec_of_fail hfail s)

theorem status_errorEntry (e : ErrorKind) (s : State) :
    (errorEntry e s).status = BitVec.ofNat 32 (6 + 16 * e.code.toNat) := by
  rw [State.status, statusOf, errorEntry_errCode, Nat.mul_comm 16]
  rfl

/-- Settles O22: the next state is `errorEntry e s`, which sets four fields and the model's own record. -/
theorem errorEntryIsExact : Obligations.ErrorEntryIsExact := by
  unfold Obligations.ErrorEntryIsExact
  intro s e h
  exact ⟨errorEntry e s, execLatch_of_error h, rfl, rfl, rfl, rfl, rfl, rfl, ⟨rfl, rfl⟩, rfl, rfl, rfl, rfl, rfl,
    status_errorEntry e s, errorKind_code_range e⟩

/-! ### The halted state (R233, R235) -/

/-- A halted engine takes from a register write without `CLR` at most a `DESC` word: its `START` is ignored (R209). -/
theorem regWrite_of_halted {s : State} (herr : s.err = true) {i : Nat} {v : Word} (hclr : i = 16 → field v 1 1 = 0) :
    ∃ d, regWrite i v s = { s with desc := d } := by
  by_cases hi : i < 16
  · exact ⟨_, regWrite_of_lt hi v s⟩
  · by_cases h16 : i = 16
    · have hstart : doStart s = s := doStart_of_not_ready (.inr herr)
      refine ⟨s.desc, ?_⟩
      simp [h16, regWrite_ctrl, writeCtrl, hclr h16, hstart]
    · exact ⟨s.desc, regWrite_of_ge (by omega) v s⟩

/-- What an action leaves of a halted, idle engine, unless it is a `CLR` or reset. -/
theorem perform_of_halted {a : Action} {s t : State} (herr : s.err = true) (hdone : s.done = true) (hbusy : s.busy = false)
    (hclr : ∀ v, a = .regWrite 16 v → field v 1 1 = 0) (hreset : a ≠ .reset) (h : perform a s = .next t) :
    t.status = s.status ∧ t.cmd = s.cmd ∧ t.errRecord = s.errRecord ∧ ((∀ b v, a ≠ .memWrite b v) → t.mem = s.mem) := by
  cases a with
  | regWrite i v =>
    injection h with h
    obtain ⟨d, hd⟩ := regWrite_of_halted herr (i := i) (v := v) fun hi => hclr v (by rw [hi])
    rw [← h, hd]
    exact ⟨rfl, rfl, rfl, fun _ => rfl⟩
  | regRead i =>
    injection h with h
    rw [← h]
    exact ⟨rfl, rfl, rfl, fun _ => rfl⟩
  | wait =>
    rw [perform, if_pos hdone] at h
    injection h with h
    rw [← h]
    exact ⟨rfl, rfl, rfl, fun _ => rfl⟩
  | memRead b =>
    rw [agentRead_next h]
    exact ⟨rfl, rfl, rfl, fun _ => rfl⟩
  | memWrite b v =>
    obtain ⟨_, rfl⟩ := agentWrite_next h
    exact ⟨rfl, rfl, rfl, fun hw => absurd rfl (hw b v)⟩
  | reset => exact absurd rfl hreset
  | engine =>
    rw [perform, engineTurn_of_idle hbusy] at h
    injection h with h
    rw [← h]
    exact ⟨rfl, rfl, rfl, fun _ => rfl⟩

/-- Settles O24: under the invariant an engine with `ERR` = 1 is done and idle, so neither its turn nor a `START` does anything
(`perform_of_halted`). -/
theorem haltedUntilClearOrReset : Obligations.HaltedUntilClearOrReset := by
  unfold Obligations.HaltedUntilClearOrReset
  intro s t hinv herr h hclr hreset
  obtain ⟨hrunning, herror, _⟩ := hinv.status_legal
  have hbusy : s.busy = false :=
    Bool.eq_false_iff.mpr fun hb => Bool.false_ne_true ((hrunning hb).2.symm.trans herr)
  unfold step at h
  split at h
  · rw [engineTurn_of_idle hbusy] at h
    injection h with h
    rw [← h]
    exact ⟨rfl, rfl, rfl, fun _ => rfl⟩
  · rename_i a rest ha
    obtain ⟨hstatus, hcmd, hrecord, hmem⟩ := perform_of_halted (s := { s with agenda := rest }) herr (herror herr).1 hbusy
      (fun v e => hclr v rest (e ▸ ha)) (fun e => hreset rest (e ▸ ha)) h
    exact ⟨hstatus, hcmd, hrecord, fun hw => hmem fun b v e => hw b v rest (e ▸ ha)⟩

/-! ### The record of errors (R233, assumption 7) -/

/-- A command appends the code of its failing check, or leaves the record alone. -/
theorem exec_errRecord {i : Instr} {s t : State} (h : exec i s = .next t) : s.errRecord <+: t.errRecord := by
  rcases exec_next h with ⟨e, _, rfl⟩ | ⟨_, _, rfl⟩
  · exact List.prefix_append _ _
  · obtain ⟨⟨_, _, _, _, _, _, _, _, hrecord⟩, _⟩ := effectOf_frame i s
    rw [complete_errRecord, hrecord]

theorem regWrite_errRecord (i : Nat) (v : Word) (s : State) : (regWrite i v s).errRecord = s.errRecord := by
  obtain ⟨_, _, _, _, _, hrecord, _⟩ := regWrite_frame i v s
  exact hrecord

theorem resetInput_errRecord (s : State) : (resetInput s).errRecord = s.errRecord := by
  rcases resetInput_cases s with ⟨_, he⟩ | ⟨_, i, _, he⟩ <;> rw [he]
  · rfl
  · rfl

/-- Settles O25: the record so far stays a prefix of the record under every operation (`step_keeps`). -/
theorem errorRecordIsNeverCleared : Obligations.ErrorRecordIsNeverCleared := by
  unfold Obligations.ErrorRecordIsNeverCleared
  refine ⟨fun s t h => ?_, fun e s => rfl⟩
  exact step_keeps (fun u => s.errRecord <+: u.errRecord)
    (hAgenda := fun _ _ hp => hp)
    (hExec := fun _ _ _ hp _ _ he => hp.trans (exec_errRecord he))
    (hIllegal := fun _ hp _ => hp.trans (List.prefix_append _ _))
    (hWrite := fun u i v hp => (regWrite_errRecord i v u).symm ▸ hp)
    (hRead := fun _ _ hp => hp)
    (hReply := fun _ _ hp => hp)
    (hMem := fun _ _ _ hp _ => hp)
    (hReset := fun u hp => (resetInput_errRecord u).symm ▸ hp)
    s t (List.prefix_refl _) h

/-! ### Commands of two engines (R239) -/

/-- A command that answers leaves every byte outside its write set (R56, R231). -/
theorem exec_read_outside {i : Instr} {s t : State} (h : exec i s = .next t) {k : Nat}
    (hk : ¬ InWriteSet (blockOf i) (k : Int)) : Memory.read t.mem k = Memory.read s.mem k := by
  rcases exec_mem_cases h with ⟨_, hmem⟩ | ⟨_, _, _, hout⟩
  · rw [hmem]
  · exact hout k hk

/-- Two runs of a command on memories that agree on its read set and on a byte leave the same at that byte. -/
theorem exec_read_congr {i : Instr} {s s' t t' : State} (h : exec i s = .next t) (h' : exec i s' = .next t')
    (hagree : AgreeOnReads i s.mem s'.mem) {k : Nat} (hk : Memory.read s.mem k = Memory.read s'.mem k) :
    Memory.read t.mem k = Memory.read t'.mem k := by
  rcases exec_mem_cases h with ⟨hfail, hmem⟩ | ⟨hc, _⟩
  · rcases exec_mem_cases h' with ⟨_, hmem'⟩ | ⟨hc', _⟩
    · rw [hmem, hmem', hk]
    · exact absurd hc' hfail
  · by_cases hw : InWriteSet (blockOf i) (k : Int)
    · exact resultDependsOnReadSetOnly i s s' t t' hc h h' hagree k hw
    · rw [exec_read_outside h hw, exec_read_outside h' hw, hk]

/-- Outside the write set of `j`, a command that reads none of it leaves the same whether or not `j` has run before it (R239). -/
theorem exec_read_after_other {i j : Instr} {s s' t t' u u' : State} (hj : exec j u = .next u') (h : exec i s = .next t)
    (h' : exec i s' = .next t') (hs : s.mem = u.mem) (hs' : s'.mem = u'.mem)
    (hread : ∀ k, InWriteSet (blockOf j) k → ¬ InReadSet i k) {k : Nat} (hk : ¬ InWriteSet (blockOf j) (k : Int)) :
    Memory.read t.mem k = Memory.read t'.mem k := by
  have hsame : ∀ a : Nat, ¬ InWriteSet (blockOf j) (a : Int) → Memory.read s.mem a = Memory.read s'.mem a := by
    intro a ha
    rw [hs, hs', exec_read_outside hj ha]
  exact exec_read_congr h h' (fun a ha => hsame a fun hw => hread a hw ha) (hsame k hk)

/-- Settles O20: whether a command answers does not depend on memory (`exec_next_other_mem`); a byte of the first block is
outside the second, any other byte outside the first, and there the earlier command makes no difference
(`exec_read_after_other`). -/
theorem disjointCommandsCommute : Obligations.DisjointCommandsCommute := by
  unfold Obligations.DisjointCommandsCommute
  intro i j a b a1 b1 m hi hj hblocks hij hji
  obtain ⟨b2, hj2⟩ := exec_next_other_mem hj m
  obtain ⟨a2, hi2⟩ := exec_next_other_mem hi b2.mem
  refine ⟨b2, a2, hj2, hi2, fun k => ?_⟩
  by_cases hk : InWriteSet (blockOf i) (k : Int)
  · calc Memory.read a2.mem k
        = Memory.read a1.mem k := (exec_read_after_other hj2 hi hi2 rfl rfl hji (hblocks k hk)).symm
      _ = Memory.read b1.mem k := (exec_read_outside hj (hblocks k hk)).symm
  · calc Memory.read a2.mem k
        = Memory.read b2.mem k := exec_read_outside hi2 hk
      _ = Memory.read b1.mem k := exec_read_after_other hi hj2 hj rfl rfl hij hk

end Sys2Proof.Machine
end

section
/-! PROOFS. Reset and hazards (70_reset_and_hazards.md): the state right after reset, what the reset input clears and spares, and
how long a command stays in flight. -/

namespace Sys2Proof.Machine

/-! ### Right after reset (R35, R251) -/

/-- Each index reads a zero `DESC` word, a `STATUS` without a flag, or nothing at all (R201). -/
theorem regRead_reset (i : Nat) : regRead i State.reset = 0 := by
  by_cases hlt : i < 16
  · exact (regRead_of_lt hlt _).trans (Vector.getElem_replicate hlt)
  · by_cases hctrl : i = 16
    · rw [hctrl, regRead_ctrl]
    · by_cases hstatus : i = 17
      · rw [hstatus, regRead_status]
        rfl
      · exact regRead_of_ge (by omega) _

/-- R202, R204: whether or not the write has `CLR` set, an idle engine without error accepts its `START`. -/
theorem regWrite_start_busy {s : State} {v : Word} (hbusy : s.busy = false) (herr : s.err = false)
    (hstart : field v 0 0 = 1) : (regWrite 16 v s).busy = true := by
  rcases Nat.le_one_iff_eq_zero_or_eq_one.mp (Nat.le_of_lt_succ (field_lt v 1 1)) with hclr | hclr
  · rw [regWrite_start s hclr hstart, doStart_of_ready hbusy herr]
  · rw [regWrite_clr_start s hclr hstart, doStart_doClr_of_idle hbusy]

/-- Settles O45: `State.reset` is idle, without error, and has an empty agenda. -/
theorem resetStateReadsZero : Obligations.ResetStateReadsZero := by
  unfold Obligations.ResetStateReadsZero
  exact ⟨regRead_reset, rfl, (step_of_agenda_nil rfl).trans (engineTurn_of_idle rfl),
    fun _ hstart => regWrite_start_busy rfl rfl hstart⟩

/-! ### The reset input (R250, R252) -/

theorem step_reset {s : State} {rest : List Action} (h : s.agenda = .reset :: rest) :
    step s = .next (resetInput { s with agenda := rest }) := by
  simp [step, h, perform]

theorem resetInput_desc_status (s : State) :
    (resetInput s).desc = Vector.replicate 16 0 ∧ (resetInput s).status = 0 := by
  rcases resetInput_cases s with ⟨_, he⟩ | ⟨_, i, _, he⟩ <;> rw [he] <;> exact ⟨rfl, rfl⟩

/-- With no command to cut off, reset touches no memory (R250). -/
theorem resetInput_mem_of_idle {s : State} (hbusy : s.busy = false) : (resetInput s).mem = s.mem := by
  rcases resetInput_cases s with ⟨_, he⟩ | ⟨hrunning, _⟩
  · rw [he, resetRegisters_mem]
  · exact absurd (hbusy.symm.trans hrunning) Bool.false_ne_true

/-- Reset spares every byte that the latched command, if it passes its checks, would not write (R252, assumption 13). -/
theorem resetInput_read_of_spared {s : State} {a : Nat}
    (h : ∀ i, runnable s.cmd = some i → ¬ InWriteSet (blockOf i) (a : Int)) :
    Memory.read (resetInput s).mem a = Memory.read s.mem a := by
  rcases resetInput_cases s with ⟨_, he⟩ | ⟨_, i, hi, he⟩
  · rw [he, resetRegisters_mem]
  · rw [he, resetRegisters_mem]
    exact storeBlock_read_outside _ _ s a (h i hi)

/-- Settles O46: the reset input clears the registers whether or not it cuts off a command, and stores in the block of a command
that passes its checks alone (`resetInput_cases`). -/
theorem resetInputClearsRegisters : Obligations.ResetInputClearsRegisters := by
  unfold Obligations.ResetInputClearsRegisters
  intro s rest h
  obtain ⟨hdesc, hstatus⟩ := resetInput_desc_status { s with agenda := rest }
  refine ⟨_, step_reset h, hdesc, hstatus, fun hbusy => resetInput_mem_of_idle hbusy, fun a hspared => ?_⟩
  refine resetInput_read_of_spared fun i hi => ?_
  obtain ⟨hd, hc⟩ := runnable_some hi
  exact hspared i hd hc

/-! ### How long a command stays in flight (R68, R258, assumption 12) -/

/-- A register write puts at most one more command in flight (R202, R256). -/
theorem regWrite_inFlight (i : Nat) (v : Word) (s : State) : s.inFlight <+: (regWrite i v s).inFlight := by
  have hclr : (doClr s).inFlight = s.inFlight := by
    rcases doClr_cases s with ⟨_, he⟩ | ⟨_, he⟩ <;> rw [he]
  have hstart (u : State) : u.inFlight <+: (doStart u).inFlight := by
    rcases doStart_cases u with ⟨_, _, he⟩ | ⟨_, he⟩
    · rw [he]
      exact List.prefix_append _ _
    · rw [he]
  rcases regWrite_cases i v s with ⟨_, he⟩ | ⟨_, clr, start, he⟩ | ⟨_, he⟩
  · rw [he]
  · have hfirst : (if clr then doClr s else s).inFlight = s.inFlight := by
      cases clr
      · rfl
      · exact hclr
    rw [he, ← hfirst]
    cases start
    · exact List.prefix_rfl
    · exact hstart _
  · rw [he]

/-- A read other than of a `STATUS` with `DONE` = 1 and `ERR` = 0 releases nothing (R258). -/
theorem hostRead_inFlight_of_unobserved {i : Nat} {s : State} (h : i = 17 → s.done = false ∨ s.err = true) :
    (hostRead i s).inFlight = s.inFlight := by
  rw [hostRead_inFlight]
  refine if_neg fun hobserved => ?_
  simp only [Bool.and_eq_true, decide_eq_true_eq, Bool.not_eq_true'] at hobserved
  obtain ⟨⟨hi, hdone⟩, herr⟩ := hobserved
  simpa [hdone, herr] using h hi

/-- Completion and error entry leave the command in flight: only the host's observation ends its window (R258). -/
theorem engineTurn_inFlight {s t : State} (h : engineTurn s = .next t) : t.inFlight = s.inFlight := by
  rcases engineTurn_next h with ⟨_, rfl⟩ | ⟨_, e, rfl⟩ | ⟨_, i, _, _, _, rfl⟩
  · rfl
  · rfl
  · obtain ⟨⟨_, _, _, _, _, _, _, hflight, _⟩, _⟩ := effectOf_frame i s
    exact hflight

/-- No action but reset and the observation of a completed command takes a command out of flight (R258). -/
theorem perform_inFlight {a : Action} {s t : State} (hreset : a ≠ .reset)
    (hunobserved : a = .regRead 17 ∨ a = .wait → s.done = false ∨ s.err = true) (h : perform a s = .next t) :
    s.inFlight <+: t.inFlight := by
  cases a with
  | regWrite i v =>
    injection h with h
    exact h ▸ regWrite_inFlight i v s
  | regRead i =>
    injection h with h
    rw [← h, hostRead_inFlight_of_unobserved fun hi => hunobserved (.inl (by rw [hi]))]
  | wait =>
    have hread : (hostRead 17 s).inFlight = s.inFlight :=
      hostRead_inFlight_of_unobserved fun _ => hunobserved (.inr rfl)
    simp only [perform] at h
    split at h
    · injection h with h
      rw [← h, hread]
    · rw [engineTurn_inFlight h, withAgenda_inFlight, hread]
  | memRead b => rw [agentRead_next h]
  | memWrite b v => rw [(agentWrite_next h).2]
  | reset => exact absurd rfl hreset
  | engine => rw [engineTurn_inFlight h]

/-- Both forms in which the host observes `DONE` = 1 are a read of `STATUS` (R68, R102). -/
theorem step_statusRead_of_done {s : State} {rest : List Action}
    (h : s.agenda = .regRead 17 :: rest ∨ s.agenda = .wait :: rest) (hdone : s.done = true) :
    step s = .next (hostRead 17 { s with agenda := rest }) :=
  h.elim step_regRead fun hwait => step_wait_of_done hwait hdone

/-- Settles O48: no other step takes a command out of flight (`perform_inFlight`), a `STATUS` read that shows completion empties
the window (`hostRead_inFlight_of_observed`), and the race test goes by that window alone (`writtenInFlight_iff`). -/
theorem unobservedResultIsRace : Obligations.UnobservedResultIsRace := by
  unfold Obligations.UnobservedResultIsRace
  refine ⟨?stays, ?released, ?race⟩
  case stays =>
    intro s t h hreset hunobserved
    have hprefix : s.inFlight <+: t.inFlight := by
      unfold step at h
      split at h
      · rw [engineTurn_inFlight h]
      · rename_i a rest ha
        have hnext {b : Action} (e : a = b) : s.agenda = b :: rest := e ▸ ha
        exact perform_inFlight (s := { s with agenda := rest }) (fun e => hreset rest (hnext e))
          (fun e => hunobserved rest (e.imp hnext hnext)) h
    exact fun d hd => hprefix.subset hd
  case released =>
    intro s rest h hdone herr
    exact ⟨_, step_statusRead_of_done h hdone, hostRead_inFlight_of_observed hdone herr, rfl, rfl⟩
  case race =>
    intro s d i a rest hflight hd hc hv hset hnext
    have hwritten : writtenInFlight { s with agenda := rest } a = true :=
      (writtenInFlight_iff _ a).mpr ⟨d, hflight, i, runnable_of_pass hd hc, hset⟩
    rw [step_memRead hnext]
    exact agentRead_of_written hv hwritten

end Sys2Proof.Machine
end
